-- ==== Sys2Proof/Word.lean ====
section
/-! DEFINITION. The words of the machine: bytes, 16-bit port words, and the fields they are made of
(spec/00_scope.md R6, R7, R8). -/

namespace Sys2Proof

/-- An unsigned 8-bit value (R7): an entry of `S` or `K`, an index, a key, data or keystream byte (R6). -/
abbrev Byte := BitVec 8

/-- A command word or a response word (R6: both are 16 bits). -/
abbrev Word := BitVec 16

/-- A 4-bit field: `OP`, `RSV` (R40) or `RC` (R42). -/
abbrev Nibble := BitVec 4

/-- The 12-bit payload `P` of a response word (R42), as wide as the `STATUS` view (R21). -/
abbrev Payload := BitVec 12

/-- `a +₈ b` of R8: addition of bytes modulo 256; it wraps and never traps. -/
def addByte (a b : Byte) : Byte := a + b

/-- `a ⊕ b` of R8: the bitwise exclusive-or of two bytes. -/
def xorByte (a b : Byte) : Byte := a ^^^ b

end Sys2Proof
end

