-- ==== Sys2Proof/Config.lean ====
section
/-! DEFINITION. The parameters of the block (spec/00_scope.md R6): the fixed ones as numbers, the two open
ones as constants without a value. -/

namespace Sys2Proof.Config

/-- `N`: the entries of the permutation `S`, and of the staging buffer `K` (R6). -/
def entries : Nat := 256

/-- `KEY_MIN`: the shortest legal key in bytes (R6). -/
def keyMin : Nat := 5

/-- `KEY_MAX`: the longest legal key in bytes (R6). -/
def keyMax : Nat := 256

/-- The ways R36 names in which the ports may appear to a host. -/
inductive PortBinding where
  | memoryMapped
  | fifo
  | direct
deriving DecidableEq, Repr, Inhabited

/-- `PortBinding` of R6, R36 and D23: OPEN; no rule reads it and nothing in the model does
(DESIGN CHOICE, log 12, safe). -/
opaque portBinding : PortBinding

/-- `Latency` of R6, R96 and D20: the time of the n-th command of a run, finite and OPEN; no rule reads it
and nothing in the model does (DESIGN CHOICE, log 12, safe). -/
opaque latency : Nat → Nat

end Sys2Proof.Config
end

