-- ==== Sys2Proof/Syntax.lean ====
section
/-! DEFINITION. The five commands of `RC4CORE-CMD v1` (spec/30_encoding.md R43), and the written forms of
R49: a mnemonic with its operand, and the pseudo-instructions. -/

namespace Sys2Proof

/-- The commands, one constructor per row of spec/opcode_table.json (R43). -/
inductive Instr where
  /-- `KCLR`: clear the key staging buffer (R51). -/
  | kclr
  /-- `KPUSH d`: append one key byte (R52). -/
  | kpush (d : Byte)
  /-- `INIT`: validate the key and run the KSA (R55). -/
  | init
  /-- `XOR d`: apply one keystream byte to one data byte (R63). -/
  | xor (d : Byte)
  /-- `STAT`: read the `STATUS` view (R70). -/
  | stat
deriving DecidableEq, Repr

/-- The mnemonics of the machine commands (R43, R49). -/
inductive Mnemonic where
  | kclr
  | kpush
  | init
  | xor
  | stat
deriving DecidableEq, Repr

/-- A command as an assembler line spells it (R49): its mnemonic and the operand written after it, which
may be missing, superfluous or out of range until `Written.wf` has looked at it. -/
structure Written where
  mnemonic : Mnemonic
  operand  : Option Nat
deriving DecidableEq, Repr

/-- The pseudo-instructions of R49. -/
inductive Pseudo where
  /-- `KEY k0, …` -/
  | key (ks : List Byte)
  /-- `INITIALIZE k0, …` -/
  | initKey (ks : List Byte)
  /-- `KS` -/
  | ks
  /-- `APPLY d0, …` -/
  | apply (ds : List Byte)
  /-- `APPLY_STATIC (k0, …) (d0, …)` -/
  | applyStatic (ks ds : List Byte)
deriving DecidableEq, Repr

end Sys2Proof
end

