-- ==== Sys2Proof/WellFormed.lean ====
section
/-! DEFINITION. What is well formed: a command word (spec/30_encoding.md R44) and a written command (R49).
The word check is arithmetic on the word's number and shares nothing with the decoder's bit slices. -/

namespace Sys2Proof

/-- R44 (a): `OP ∈ {0x0, 0x6, …, 0xF}`. -/
def illegalOpcode (w : Word) : Bool :=
  w.toNat / 4096 == 0 || decide (6 ≤ w.toNat / 4096)

/-- R44 (b): `RSV ≠ 0`. -/
def reservedFieldSet (w : Word) : Bool :=
  w.toNat / 256 % 16 != 0

/-- R44 (c): `OP ∈ {0x1, 0x3, 0x5}` and `D ≠ 0x00`. -/
def operandFieldSet (w : Word) : Bool :=
  (w.toNat / 4096 == 1 || w.toNat / 4096 == 3 || w.toNat / 4096 == 5) && w.toNat % 256 != 0

/-- A word is legal when none of R44 (a), (b), (c) holds. -/
def legalWord (w : Word) : Bool :=
  !illegalOpcode w && !reservedFieldSet w && !operandFieldSet w

/-- Every term of `Instr` is a command of R43: its one operand is a byte by its type, so nothing is left to
check. One line per constructor, so that a new one cannot slip past. -/
def Instr.wf : Instr → Bool
  | .kclr => true
  | .kpush _ => true
  | .init => true
  | .xor _ => true
  | .stat => true

/-- R49: `KPUSH` and `XOR` take one operand. -/
def Mnemonic.takesOperand : Mnemonic → Bool
  | .kclr => false
  | .kpush => true
  | .init => false
  | .xor => true
  | .stat => false

/-- The operand stands exactly where R49 wants one. -/
def Written.operandPlaced (c : Written) : Bool :=
  c.operand.isSome == c.mnemonic.takesOperand

/-- The operand is "a byte": 0..255 (R49). -/
def Written.operandInRange (c : Written) : Bool :=
  c.operand.all fun n => decide (n < 256)

/-- A written command is well formed when both checks pass. -/
def Written.wf (c : Written) : Bool :=
  c.operandPlaced && c.operandInRange

end Sys2Proof
end

