-- ==== Sys2Proof/Decode.lean ====
section
/-! DEFINITION. Decoding a command word, total and rejecting by name, then the encoder
(spec/30_encoding.md R40, R41, R43, R44, R46, R49), and the byte order of a byte-wide link (R32). -/

namespace Sys2Proof

/-- Why a word, or a pair of bytes, spells no command. -/
inductive DecodeError where
  /-- `RSV ≠ 0` (R44 (b)). -/
  | reservedFieldSet
  /-- `OP` is 0x0 or 0x6..0xF (R44 (a)). -/
  | illegalOpcode
  /-- `D ≠ 0x00` where the command has no operand (R44 (c)). -/
  | operandFieldSet
  /-- A byte-wide link has delivered less than one word. -/
  | truncated
deriving DecidableEq, Repr

/-- `OP = w[15:12]` (R41). -/
def opField (w : Word) : Nibble := w.extractLsb' 12 4

/-- `RSV = w[11:8]` (R41). -/
def rsvField (w : Word) : Nibble := w.extractLsb' 8 4

/-- `D = w[7:0]` (R41), used as it stands: no extension, scaling or shift. -/
def dataField (w : Word) : Byte := w.extractLsb' 0 8

/-- A command without an operand: `D` must be 0x00 (R40). -/
def withoutOperand (d : Byte) (i : Instr) : Except DecodeError Instr :=
  if d = 0x00#8 then .ok i else .error .operandFieldSet

/-- The opcode map of R43, entered with `RSV = 0`. -/
def decodeOpcode (op : Nibble) (d : Byte) : Except DecodeError Instr :=
  if op = 0x1#4 then withoutOperand d .kclr
  else if op = 0x2#4 then .ok (.kpush d)
  else if op = 0x3#4 then withoutOperand d .init
  else if op = 0x4#4 then .ok (.xor d)
  else if op = 0x5#4 then withoutOperand d .stat
  else .error .illegalOpcode

/-- The decoder, in the order of R46: `RSV` first, then `OP`, then `D`. -/
def decode (w : Word) : Except DecodeError Instr :=
  if rsvField w ≠ 0x0#4 then .error .reservedFieldSet
  else decodeOpcode (opField w) (dataField w)

/-- A word on a byte-wide link: the high byte goes first (R32, D17). -/
def bytesOfWord (w : Word) : List Byte :=
  [w.extractLsb' 8 8, w.extractLsb' 0 8]

/-- The word that two bytes of a byte-wide link carry, the first the high one (R32, D17). -/
def wordOfBytes (hi lo : Byte) : Word := hi ++ lo

/-- Decode the next command of a byte-wide link, and give back the bytes after it (log 17). -/
def decodeBytes : List Byte → Except DecodeError (Instr × List Byte)
  | hi :: lo :: rest => (decode (wordOfBytes hi lo)).map fun i => (i, rest)
  | _ => .error .truncated

/-- The instruction the decoder reads from a word numbered as spec/opcode_table.json numbers it: a command is
one 16-bit word (R45), so a number that does not fit one has none. -/
def decodeTableWord (nbits w : Nat) : Option Instr :=
  if w % 2 ^ nbits < 65536 then (decode (BitVec.ofNat 16 (w % 2 ^ nbits))).toOption else none

/-- The opcode of each command (R43). -/
def opcodeOf : Instr → Nibble
  | .kclr => 0x1#4
  | .kpush _ => 0x2#4
  | .init => 0x3#4
  | .xor _ => 0x4#4
  | .stat => 0x5#4

/-- The `D` field of each command: its operand, else 0x00 (R40). -/
def operandOf : Instr → Byte
  | .kclr => 0x00#8
  | .kpush d => d
  | .init => 0x00#8
  | .xor d => d
  | .stat => 0x00#8

/-- The encoder: the word with the opcode, `RSV = 0` and the operand in the places R40 gives them. -/
def encode (i : Instr) : Word :=
  opcodeOf i ++ (0x0#4 : Nibble) ++ operandOf i

/-- The command a written one stands for (R49); none where it is not well formed. -/
def Written.toInstr (c : Written) : Option Instr :=
  if c.wf then
    match c.mnemonic with
    | .kclr => some .kclr
    | .kpush => some (.kpush (BitVec.ofNat 8 (c.operand.getD 0)))
    | .init => some .init
    | .xor => some (.xor (BitVec.ofNat 8 (c.operand.getD 0)))
    | .stat => some .stat
  else none

end Sys2Proof
end

