-- ==== Sys2Proof/Machine/State.lean ====
section
/-! DEFINITION. The state of the core as plain data (spec/10_state.md), its reset values (R29), the reasons a
step can stop, and the named updates of each part of the state. -/

namespace Sys2Proof.Machine

/-- One internal address space of R30, as (address, byte) cells in one canonical form (`Memory.wf`): addresses
strictly rising and below 256, no cell that holds what an unlisted address reads as. -/
abbrev Memory := List Host.Cell

/-- The Cipher State: "`S`, `i` and `j` together" (00_scope.md glossary). -/
structure CipherState where
  /-- The first cursor (R15). -/
  i : Byte
  /-- The permutation array (R14). -/
  S : Memory
  /-- The second cursor (R15). -/
  j : Byte
deriving DecidableEq, Repr

/-- The staging buffer: "`K`, `KLEN`, `KOVF`" (00_scope.md glossary). -/
structure Staging where
  /-- `KOVF`: the key-overflow flag (R19). -/
  kovf : Bool
  /-- The key staging buffer (R17). -/
  K : Memory
  /-- `KLEN`: 9 bits, of which 257..511 are never held (R18; R12 gives the type). -/
  klen : Fin 257
deriving DecidableEq, Repr

/-- `PHASE`: the lifecycle state (R20). The reserved encoding 3 cannot be written down (U6, log 18). -/
inductive Phase where
  | uninit
  | scheduled
  | running
deriving DecidableEq, Repr

/-- What the host may do to the core (R48, R90), one element per action. -/
inductive HostEvent where
  /-- Write one command word while no command is in flight, and wait for its response (R47, R48). -/
  | command (w : Word)
  /-- Assert reset between commands (R48, R90). -/
  | reset
  /-- Assert reset while the command `w` is in progress (R90). -/
  | resetDuring (w : Word)
  /-- Write `next` before the response of `inFlight` has arrived: the duty of R47 broken (U10). -/
  | overlap (inFlight next : Word)
deriving DecidableEq, Repr

/-- The core, and what has crossed and will cross its port. In this record and the two above it no array stands first
or last: two states that differ are told apart before a check of equality unrolls a loop over an array. The updates
below take the state last for the same reason. -/
structure State where
  /-- The host's actions the core has not taken yet, earliest first (R47, R48; log 1). -/
  port : List HostEvent
  /-- `PHASE`. -/
  phase : Phase
  /-- `K`, `KLEN`, `KOVF`. -/
  staging : Staging
  /-- `S`, `i`, `j`. -/
  cipher : CipherState
  /-- The response words delivered, oldest first (R42, R98; log 7). -/
  responses : List Word
deriving DecidableEq, Repr

/-- The core has no traps and no faults (R84), and no access can fall outside an array (R30): there is no way to
stop with a fault. A closed inductive with no constructor, so that nothing can raise one (safe). -/
inductive Fault where
deriving DecidableEq, Repr

/-- The reasons a step is refused. -/
inductive Refusal where
  /-- Raised by an arm of `exec` whose instruction has no meaning yet; no arm is left so (safe). -/
  | notModelled (mnemonic : String)
  /-- Raised by the port when the host writes a command while another is in flight: "a model gives that move no
  step" (R47, U10; log 9). It errs as D16 says: a host that does so has no run in the model (unsafe for that host). -/
  | commandInFlight
deriving DecidableEq, Repr

/-- Right after reset (R29, R90): `UNINIT`, no staged key, no overflow. `S`, `i`, `j` and `K`, which R29 leaves
unspecified, hold zeros (DESIGN CHOICE, logs 3, 4 and 5, unsafe). No word has crossed the port (R91). -/
def State.reset : State where
  port := []
  phase := .uninit
  staging := { kovf := false, K := [], klen := 0 }
  cipher := { i := 0x00#8, S := [], j := 0x00#8 }
  responses := []

/-- Replace the Cipher State. -/
def State.setCipher (c : CipherState) (s : State) : State := { s with cipher := c }

/-- Replace the staging buffer. -/
def State.setStaging (b : Staging) (s : State) : State := { s with staging := b }

/-- Replace `PHASE`. -/
def State.setPhase (p : Phase) (s : State) : State := { s with phase := p }

/-- Replace what the host has yet to do. -/
def State.setPort (es : List HostEvent) (s : State) : State := { s with port := es }

/-- Deliver one response word. -/
def State.deliver (r : Word) (s : State) : State := { s with responses := s.responses ++ [r] }

end Sys2Proof.Machine
end

