-- ==== Sys2Proof/Machine/Ops.lean ====
section
/-! DEFINITION. The named operations: reading, writing and swapping entries of the two internal arrays
(spec/20_memory.md R30, 00_scope.md R10), the half-open loop (R9), and ending a command with a response. -/

namespace Sys2Proof.Machine

/-- What an address with no cell reads as (DESIGN CHOICE, log 6, unsafe): the spec leaves the contents after
reset unspecified (R29) and no command reads them (R27). -/
def unlistedByte : Byte := 0x00#8

/-- The cells from `lo` on are in canonical form: addresses rising and below 256, no cell that holds
`unlistedByte`. -/
def Memory.wfFrom : Nat → Memory → Bool
  | _, [] => true
  | lo, c :: rest =>
    decide (lo ≤ c.1) && decide (c.1 < Config.entries) && decide (c.2 ≠ unlistedByte) && Memory.wfFrom (c.1 + 1) rest

/-- The canonical form of an internal address space. -/
def Memory.wf (m : Memory) : Bool := Memory.wfFrom 0 m

/-- The byte at address `a`. The comparisons are `Nat.blt` and `Nat.beq` because the kernel computes those at
once. -/
def Memory.lookup : Memory → Nat → Byte
  | [], _ => unlistedByte
  | c :: rest, a =>
    bif Nat.blt c.1 a then Memory.lookup rest a else bif Nat.beq c.1 a then c.2 else unlistedByte

/-- The cell `(a, v)` before `rest`, or none where `v` is what an unlisted address reads as. -/
def Memory.cons (a : Nat) (v : Byte) (rest : Memory) : Memory :=
  bif Nat.beq v.toNat unlistedByte.toNat then rest else (a, v) :: rest

/-- Drop the leading cells at addresses up to `a`. -/
def Memory.dropThrough (a : Nat) : Memory → Memory
  | [] => []
  | c :: rest => bif Nat.ble c.1 a then Memory.dropThrough a rest else c :: rest

/-- Store `v` at address `a`, keeping the canonical form. -/
def Memory.store : Memory → Nat → Byte → Memory
  | [], a, v => Memory.cons a v []
  | c :: rest, a, v =>
    bif Nat.blt c.1 a then c :: Memory.store rest a v else Memory.cons a v (Memory.dropThrough a (c :: rest))

/-- `S[k]` or `K[k]` as a value: `MemRead` of one byte at a byte address (R10, R30). -/
def Memory.read (m : Memory) (k : Byte) : Byte := m.lookup k.toNat

/-- `S[k] <- v` or `K[k] <- v`: `MemWrite` of one byte at a byte address (R10, R30). -/
def Memory.write (m : Memory) (k v : Byte) : Memory := m.store k.toNat v

/-- `swap(S[a], S[b])` of R10: `t <- S[a]; S[a] <- S[b]; S[b] <- t`. -/
def Memory.swap (m : Memory) (a b : Byte) : Memory :=
  (m.write a (m.read b)).write b (m.read a)

/-- `for n in 0..count: body n`, half open, in increasing order (R9). Irreducible, so that a proof does not unroll 256
iterations by accident; the kernel evaluates it all the same. -/
@[irreducible] def forRange {α : Type} (count : Nat) (body : Nat → α → α) (a : α) : α :=
  Nat.fold count (fun n _ x => body n x) a

/-- The byte that a loop counter or a key length below 256 is. -/
def byteOfNat (n : Nat) : Byte := BitVec.ofNat 8 n

/-- The response codes of R80; 0x5..0xF are reserved, never produced, and cannot be written down (U5, log 18). -/
inductive ResponseCode where
  | ok
  | keyTooShort
  | keyTooLong
  | notReady
  | illegal
deriving DecidableEq, Repr

/-- The number of a response code (R80). -/
def ResponseCode.code : ResponseCode → Nibble
  | .ok => 0x0#4
  | .keyTooShort => 0x1#4
  | .keyTooLong => 0x2#4
  | .notReady => 0x3#4
  | .illegal => 0x4#4

/-- `{RC[3:0], P[11:0]}` (R42). -/
def responseWord (rc : ResponseCode) (p : Payload) : Word := rc.code ++ p

/-- `respond(rc, p)` of R10: end the command and return one response word. -/
def respond (rc : ResponseCode) (p : Payload) (s : State) : Host.Outcome State Fault Refusal :=
  .next (s.deliver (responseWord rc p))

/-- `reject(rc)` of R10: respond with payload 0 and no state written by the command. It stands where another
machine takes an exception, for this one has no traps (R84): nothing is saved, masked or entered, and there is
nothing to return from. -/
def reject (rc : ResponseCode) (s : State) : Host.Outcome State Fault Refusal :=
  respond rc 0x000#12 s

/-- `clear_key()` of R50, on the staging buffer. -/
def clearedStaging (b : Staging) : Staging where
  K := forRange Config.entries (fun n K => K.write (byteOfNat n) 0x00#8) b.K
  klen := 0
  kovf := false

/-- `clear_key()` of R50. -/
def clearKey (s : State) : State := s.setStaging (clearedStaging s.staging)

end Sys2Proof.Machine
end

