-- ==== Sys2Proof/Machine/Operands.lean ====
section
/-! DEFINITION. The operand and result forms: the data byte `D` as it stands (spec/30_encoding.md R41), a byte
result in the payload (R42), and the key byte an iteration of the KSA reads (spec/40_key_scheduler.md R54). -/

namespace Sys2Proof.Machine

/-- `zext_12(b)`: a byte result as a payload, `P[11:8] = 0000` (R7, R42). -/
def zext12 (b : Byte) : Payload := (0x0#4 : Nibble) ++ b

/-- `K[n mod KLEN]`: the key byte of iteration `n` of the KSA (R54). -/
def keyByte (K : Memory) (klen n : Nat) : Byte := K.read (byteOfNat (n % klen))

/-- `P[7:0]` of a response word: what the host writes back into its buffer (R48). -/
def resultByte (r : Word) : Byte := r.extractLsb' 0 8

/-- `RC = r[15:12]` of a response word (R42, R80). -/
def rcField (r : Word) : Nibble := r.extractLsb' 12 4

/-- `P = r[11:0]` of a response word (R42). -/
def payloadField (r : Word) : Payload := r.extractLsb' 0 12

end Sys2Proof.Machine
end

