-- ==== Sys2Proof/Machine/Flags.lean ====
section
/-! DEFINITION. What is computed from and for `PHASE`, `KOVF` and `KLEN`: the encoding of `PHASE`
(spec/10_state.md R20), the `STATUS` view (R21), and the key-length validation (spec/40_key_scheduler.md R53). -/

namespace Sys2Proof.Machine

/-- The encoding of `PHASE` (R20). -/
def Phase.code : Phase → BitVec 2
  | .uninit => 0#2
  | .scheduled => 1#2
  | .running => 2#2

/-- The 9-bit `KLEN` field (R18). -/
def klenBits (b : Staging) : BitVec 9 := BitVec.ofNat 9 b.klen.val

/-- The `STATUS` view `{PHASE[1:0], KOVF, KLEN[8:0]}` (R21, R70): no storage of its own. -/
def statusView (p : Phase) (b : Staging) : Payload :=
  p.code ++ BitVec.ofBool b.kovf ++ klenBits b

/-- `validate()` of R53: the response the staged key length calls for, from `KOVF` and `KLEN` alone. -/
def validate (b : Staging) : ResponseCode × Payload :=
  if b.kovf = true then (.keyTooLong, 0x100#12)
  else if b.klen.val < Config.keyMin then (.keyTooShort, 0x005#12)
  else (.ok, 0x000#12)

end Sys2Proof.Machine
end

