-- ==== Sys2Proof/Machine/KeyScheduler.lean ====
section
/-! DEFINITION. The Key Scheduler (spec/40_key_scheduler.md): `KCLR`, `KPUSH`, the KSA and `INIT`. -/

namespace Sys2Proof.Machine

/-- `KCLR` (R51). -/
def execKclr (s : State) : Host.Outcome State Fault Refusal :=
  respond .ok 0x000#12 (clearKey s)

/-- The staging buffer after one more key byte (R52): stored at `K[KLEN]` while `KLEN < 256`; otherwise the byte
is discarded and `KOVF` set. -/
def pushedStaging (d : Byte) (b : Staging) : Staging :=
  if h : b.klen.val < Config.keyMax then
    { b with K := b.K.write (byteOfNat b.klen.val) d, klen := ⟨b.klen.val + 1, Nat.succ_lt_succ h⟩ }
  else { b with kovf := true }

/-- `KPUSH d` (R52). -/
def execKpush (d : Byte) (s : State) : Host.Outcome State Fault Refusal :=
  respond .ok 0x000#12 (s.setStaging (pushedStaging d s.staging))

/-- The first loop of the KSA (R54): the identity permutation. -/
def identityPerm (S : Memory) : Memory :=
  forRange Config.entries (fun n S => S.write (byteOfNat n) (byteOfNat n)) S

/-- Iteration `n` of the KSA's second loop (R54), on the cursors `i` and `j` themselves (R16). -/
def ksaRound (K : Memory) (klen n : Nat) (c : CipherState) : CipherState :=
  let i := byteOfNat n
  let j := addByte (addByte c.j (c.S.read i)) (keyByte K klen n)
  { S := c.S.swap i j, i := i, j := j }

/-- The first `count` iterations of the KSA's second loop (R54), from the identity permutation and `j = 0`. -/
def ksaRounds (K : Memory) (klen count : Nat) (c : CipherState) : CipherState :=
  forRange count (ksaRound K klen) { S := identityPerm c.S, i := c.i, j := 0x00#8 }

/-- `KSA()` (R54): all 256 iterations, then both cursors back to 0. -/
def ksa (K : Memory) (klen : Nat) (c : CipherState) : CipherState :=
  { S := (ksaRounds K klen Config.entries c).S, i := 0x00#8, j := 0x00#8 }

/-- `INIT` (R55). -/
def execInit (s : State) : Host.Outcome State Fault Refusal :=
  match validate s.staging with
  | (.ok, p) => respond .ok p (clearKey ((s.setCipher (ksa s.staging.K s.staging.klen.val s.cipher)).setPhase .scheduled))
  | (rc, p) => respond rc p (clearKey (s.setPhase .uninit))

end Sys2Proof.Machine
end

