-- ==== Sys2Proof/Machine/Keystream.lean ====
section
/-! DEFINITION. The Keystream Generator (spec/41_keystream_generator.md) and the Keystream Applicator
(spec/42_keystream_applicator.md): the PRGA and `XOR`. -/

namespace Sys2Proof.Machine

/-- The Cipher State after one step of the PRGA (R60): `j` takes `S[i]` from before the swap. -/
def prgaNext (c : CipherState) : CipherState :=
  let i := addByte c.i 0x01#8
  let j := addByte c.j (c.S.read i)
  { S := c.S.swap i j, i := i, j := j }

/-- The output read of the PRGA (R60), on the state after the swap: `S[S[i] +₈ S[j]]`. -/
def prgaOutput (c : CipherState) : Byte :=
  c.S.read (addByte (c.S.read c.i) (c.S.read c.j))

/-- `PRGA()` (R60): the keystream byte and the state after it. -/
def prga (c : CipherState) : Byte × CipherState :=
  (prgaOutput (prgaNext c), prgaNext c)

/-- `XOR d` once a Cipher State exists (R63): one step of the PRGA, `PHASE <- RUNNING`, the byte masked. -/
def applyKeystream (d : Byte) (s : State) : Host.Outcome State Fault Refusal :=
  respond .ok (zext12 (xorByte d (prga s.cipher).1)) ((s.setCipher (prga s.cipher).2).setPhase .running)

/-- `XOR d` (R63). -/
def execXor (d : Byte) (s : State) : Host.Outcome State Fault Refusal :=
  match s.phase with
  | .uninit => reject .notReady s
  | .scheduled => applyKeystream d s
  | .running => applyKeystream d s

end Sys2Proof.Machine
end

