-- ==== Sys2Proof/Machine/Status.lean ====
section
/-! DEFINITION. The status read (spec/43_status.md): `STAT`. -/

namespace Sys2Proof.Machine

/-- `STAT` (R70). -/
def execStat (s : State) : Host.Outcome State Fault Refusal :=
  respond .ok (statusView s.phase s.staging) s

end Sys2Proof.Machine
end

