-- ==== Sys2Proof/Machine/Dispatch.lean ====
section
/-! DEFINITION. The dispatch of a decoded command to its meaning (spec/30_encoding.md R46), one arm per command. -/

namespace Sys2Proof.Machine

def exec (i : Instr) (s : State) : Host.Outcome State Fault Refusal :=
  match i with
  | .kclr => Sys2Proof.Machine.execKclr s
  | .kpush d => Sys2Proof.Machine.execKpush d s
  | .init => Sys2Proof.Machine.execInit s
  | .xor d => Sys2Proof.Machine.execXor d s
  | .stat => Sys2Proof.Machine.execStat s

end Sys2Proof.Machine
end

