-- ==== Sys2Proof/Machine/Port.lean ====
section
/-! DEFINITION. The command port (spec/30_encoding.md R46, R47, R48): one command word performed whole, and what
each host event does to the core. -/

namespace Sys2Proof.Machine

/-- R46: perform the command word `w`, in one atomic transition. A word that spells no command is answered
`ILLEGAL` before any state is read or written (R44, R83). -/
def perform (w : Word) (s : State) : Host.Outcome State Fault Refusal :=
  match decode w with
  | .ok i => exec i s
  | .error _ => reject .illegal s

/-- R90: every element of the core at its reset value. It has no response word; what the host has already been
told and what it will do next are the host's (log 8). -/
def resetEvent (s : State) : State :=
  { State.reset with port := s.port, responses := s.responses }

/-- One host event, taken off the port: what the core does (R47, R48, R90). A reset that finds a command in
progress leaves no partial effect of it and drops its response (R90). -/
def accept (e : HostEvent) (s : State) : Host.Outcome State Fault Refusal :=
  match e with
  | .command w => perform w s
  | .reset => .next (resetEvent s)
  | .resetDuring _ => .next (resetEvent s)
  | .overlap _ _ => .refused .commandInFlight

/-- Write one more command word at the head of the port. -/
def offerWord (w : Word) (s : State) : State := s.setPort (.command w :: s.port)

end Sys2Proof.Machine
end

