-- ==== Sys2Proof/Machine/Step.lean ====
section
/-! DEFINITION. One step of the machine: the next host event is taken off the port and performed whole. -/

namespace Sys2Proof.Machine

/-- One step. With nothing on the port the core "simply waits for the next word" and keeps all of its state
(spec/60_exceptions.md R87; log 2). -/
def step (s : State) : Host.Outcome State Fault Refusal :=
  match s.port with
  | [] => .next s
  | e :: rest => accept e (s.setPort rest)

/-- `s` with one command word written to the port as the host's next action, so that the next step performs it.
The core fetches nothing (R13, R31): a program is the host's sequence of words (log 1). -/
def State.withFetchWord (s : State) (nbits w : Nat) : State :=
  offerWord (BitVec.ofNat 16 (w % 2 ^ nbits)) s

end Sys2Proof.Machine
end

