-- ==== Sys2Proof/Machine/Platform.lean ====
section
/-! DEFINITION. Several cores (spec/60_exceptions.md R88): a platform is a list of cores that share nothing, and a
move steps one of them. The schedule, which core moves next, is an argument (log 13). -/

namespace Sys2Proof.Machine

/-- "The product of independent single-core models" (R88). -/
abbrev Platform := List State

/-- One move: core `k` steps. Where there is no core `k`, nothing moves. -/
def platformStep (k : Nat) (p : Platform) : Host.Outcome Platform Fault Refusal :=
  match p[k]? with
  | none => .next p
  | some s =>
    match step s with
    | .next t => .next (p.set k t)
    | .fault r => .fault r
    | .refused r => .refused r

/-- The moves of a schedule, in its order: "interleaved freely" (R88). -/
def platformRun : List Nat → Platform → Host.Outcome Platform Fault Refusal
  | [], p => .next p
  | k :: ks, p =>
    match platformStep k p with
    | .next q => platformRun ks q
    | .fault r => .fault r
    | .refused r => .refused r

end Sys2Proof.Machine
end

