-- ==== Sys2Proof/Machine/HostProcedures.lean ====
section
/-! DEFINITION. What a host does with the core: sequences of commands, the expansions of the pseudo-instructions
(spec/30_encoding.md R48, R49), `initialize` (spec/40_key_scheduler.md R56), `apply` and `apply_static`
(spec/42_keystream_applicator.md R65, R66, R69). They are the host's code over the machine, no part of it (log 20). -/

namespace Sys2Proof.Machine

/-- Go on with a next state; stop where the machine stops. -/
def andThen {σ τ : Type} (o : Host.Outcome σ Fault Refusal) (f : σ → Host.Outcome τ Fault Refusal) :
    Host.Outcome τ Fault Refusal :=
  match o with
  | .next s => f s
  | .fault r => .fault r
  | .refused r => .refused r

/-- Perform command words in the order written (R37). -/
def performAll : List Word → State → Host.Outcome State Fault Refusal
  | [], s => .next s
  | w :: ws, s => andThen (perform w s) (performAll ws)

/-- The last response word delivered. -/
def lastResponse (s : State) : Word := s.responses.getLastD 0x0000#16

/-- Write one command and read its response (R47). -/
def issue (w : Word) (s : State) : Host.Outcome (State × Word) Fault Refusal :=
  andThen (perform w s) fun t => .next (t, lastResponse t)

/-- `RC = OK`. -/
def isOk (r : Word) : Bool := rcField r == ResponseCode.ok.code

/-- `KEY k0, …`: `KCLR; KPUSH k0; …` (R49). -/
def keyWords (ks : List Byte) : List Word := encode .kclr :: ks.map fun k => encode (.kpush k)

/-- `INITIALIZE k0, …`: `KEY k0, …; INIT` (R49). -/
def initKeyWords (ks : List Byte) : List Word := keyWords ks ++ [encode .init]

/-- `APPLY d0, …`: `XOR d0; …`; nothing at all for no bytes (R49). -/
def applyWords (ds : List Byte) : List Word := ds.map fun d => encode (.xor d)

/-- The words a pseudo-instruction issues whatever is answered (R49). -/
def pseudoWords : Pseudo → List Word
  | .key ks => keyWords ks
  | .initKey ks => initKeyWords ks
  | .ks => [encode (.xor 0x00#8)]
  | .apply ds => applyWords ds
  | .applyStatic ks _ => initKeyWords ks

/-- The words it issues after those "only if that `INIT`'s `RC = OK`" (R49). -/
def guardedWords : Pseudo → List Word
  | .key _ => []
  | .initKey _ => []
  | .ks => []
  | .apply _ => []
  | .applyStatic _ ds => applyWords ds

/-- Run a pseudo-instruction, with the host's guard of `APPLY_STATIC` (R48, R49). -/
def runPseudo (p : Pseudo) (s : State) : Host.Outcome State Fault Refusal :=
  andThen (performAll (pseudoWords p) s) fun t =>
    if isOk (lastResponse t) then performAll (guardedWords p) t else .next t

/-- The source's two error kinds with the threshold they carry (R53, R56, R66). -/
inductive KeyError where
  | keyTooShort (minimum : Nat)
  | keyTooLong (maximum : Nat)
deriving DecidableEq, Repr

/-- The error an `INIT` response reports, with its threshold from the payload; none for `OK` (R56). -/
def keyErrorOf (r : Word) : Option KeyError :=
  if rcField r = ResponseCode.keyTooShort.code then some (.keyTooShort (payloadField r).toNat)
  else if rcField r = ResponseCode.keyTooLong.code then some (.keyTooLong (payloadField r).toNat)
  else none

/-- `initialize(key)`: `INITIALIZE key`; its result is the `INIT` response (R56). -/
def initialiseKey (ks : List Byte) (s : State) : Host.Outcome (State × Word) Fault Refusal :=
  andThen (performAll (keyWords ks) s) (issue (encode .init))

/-- `apply(state, buffer)`: one `XOR` per byte in buffer order; byte `n` is replaced with `P[7:0]` of the `n`-th
response, only when its `RC = OK` (R48, R65). -/
def applyBuffer : List Byte → State → Host.Outcome (State × List Byte) Fault Refusal
  | [], s => .next (s, [])
  | d :: ds, s =>
    andThen (issue (encode (.xor d)) s) fun x =>
      andThen (applyBuffer ds x.1) fun y =>
        .next (y.1, (if isOk x.2 then resultByte x.2 else d) :: y.2)

/-- What `apply_static` hands back: the core, the buffer, and the error if there is one (R66). -/
structure StaticResult where
  core   : State
  buffer : List Byte
  error  : Option KeyError
deriving DecidableEq, Repr

/-- `apply_static(key, buffer)` (R66): stop after an `INIT` that is not `OK`, with its error and the buffer as it
was; otherwise `apply` the whole buffer. -/
def applyStatic (ks ds : List Byte) (s : State) : Host.Outcome StaticResult Fault Refusal :=
  andThen (initialiseKey ks s) fun x =>
    if isOk x.2 then andThen (applyBuffer ds x.1) fun y => .next { core := y.1, buffer := y.2, error := none }
    else .next { core := x.1, buffer := ds, error := keyErrorOf x.2 }

/-- `KeyedState(key, n)` of R97: after `INITIALIZE key` and `n` accepted `XOR`s (here `KS`), from `s`. R97 names this
state only where `INITIALIZE` returned `OK`. DESIGN CHOICE (log 20): the function tests no response, so that for a key
of invalid length, where R97 has no `KeyedState`, it gives the state after the failed `INIT` and `n` rejected `XOR`s. -/
def keyedState (ks : List Byte) (n : Nat) (s : State) : Host.Outcome State Fault Refusal :=
  performAll (initKeyWords ks ++ List.replicate n (encode (.xor 0x00#8))) s

end Sys2Proof.Machine
end

