-- ==== Sys2Proof/Reference.lean ====
section
/-! DEFINITION. The source's algorithm as its text has it, on plain numbers: the KSA quoted in
spec/40_key_scheduler.md R54 and the PRGA quoted in spec/41_keystream_generator.md R60, "mod 256" throughout. Claims
say that the machine refines it; the machine does not use it. -/

namespace Sys2Proof.Reference

/-- `permutation`, `index_i` and `index_j` (R11). -/
structure Cipher where
  perm : Nat → Nat
  i : Nat
  j : Nat

/-- "swap `permutation[a]` and `permutation[b]`". -/
def exchange (p : Nat → Nat) (a b : Nat) : Nat → Nat :=
  fun k => if k = a then p b else if k = b then p a else p k

/-- `permutation` and `index_j` after the first `count` rounds of the KSA with `key` (R54). -/
def ksaRounds (key : Nat → Nat) (length : Nat) : Nat → (Nat → Nat) × Nat
  | 0 => (fun n => n, 0)
  | n + 1 =>
    let before := ksaRounds key length n
    let j := (before.2 + before.1 n + key (n % length)) % 256
    (exchange before.1 n j, j)

/-- The Cipher State that `initialize(key)` builds: "reset both cursors" (R54). -/
def initial (key : Nat → Nat) (length : Nat) : Cipher where
  perm := (ksaRounds key length 256).1
  i := 0
  j := 0

/-- The state after one `next_byte` (R60). -/
def advance (c : Cipher) : Cipher :=
  let i := (c.i + 1) % 256
  let j := (c.j + c.perm i) % 256
  { perm := exchange c.perm i j, i := i, j := j }

/-- The byte `next_byte` returns, read from the state after it (R60). -/
def output (c : Cipher) : Nat := c.perm ((c.perm c.i + c.perm c.j) % 256)

/-- The state after `n` calls of `next_byte`. -/
def after (c : Cipher) : Nat → Cipher
  | 0 => c
  | n + 1 => advance (after c n)

/-- Keystream byte `n` of a key, counted from 0 (R62: offset = call number - 1). -/
def keystream (key : Nat → Nat) (length n : Nat) : Nat := output (after (initial key length) (n + 1))

end Sys2Proof.Reference
end

