-- ==== Sys2Proof/Safety.lean ====
section
/-! DEFINITION. What the claims call a legal state, a dutiful host, and two cores no host can tell apart. -/

namespace Sys2Proof.Machine

/-- "Every value 0..255 occurs in exactly one entry" (spec/10_state.md R26). -/
def Memory.isPermutation (m : Memory) : Prop :=
  ∀ v : Byte, ∃ k : Byte, m.read k = v ∧ ∀ k' : Byte, m.read k' = v → k' = k

/-- The states the machine can be in: both arrays in canonical form (20_memory.md R30), a permutation in `S`
wherever a Cipher State exists (R26), and an overflow only of a full key (R19). -/
structure State.Inv (s : State) : Prop where
  permWf : s.cipher.S.wf = true
  keyWf : s.staging.K.wf = true
  permutation : s.phase ≠ .uninit → s.cipher.S.isPermutation
  overflow : s.staging.kovf = true → s.staging.klen.val = 256

/-- The host writes no command while another is in flight (30_encoding.md R47, R48). -/
def HostEvent.dutiful : HostEvent → Bool
  | .command _ => true
  | .reset => true
  | .resetDuring _ => true
  | .overlap _ _ => false

/-- A safe run: from here on, while the host keeps its duty, the machine never stops. -/
def State.safe (s : State) : Prop := s.port.all HostEvent.dutiful = true

/-- The core's own state is the same: `S`, `i`, `j`, `K`, `KLEN`, `KOVF` and `PHASE`. -/
def SameCore (s t : State) : Prop :=
  t.cipher = s.cipher ∧ t.staging = s.staging ∧ t.phase = s.phase

/-- Two Cipher States whose entries and cursors agree. -/
def CipherState.Agrees (c d : CipherState) : Prop :=
  (∀ k : Byte, c.S.read k = d.S.read k) ∧ c.i = d.i ∧ c.j = d.j

/-- Two states that agree on everything a command has written: `PHASE`, `KLEN`, `KOVF`, the staged key
`K[0..KLEN)`, the port, the responses, and the Cipher State wherever one exists. What R29 leaves unspecified, and
what lies beyond the staged key, may differ (10_state.md R27). -/
structure State.AgreesWhereWritten (s t : State) : Prop where
  phase : t.phase = s.phase
  klen : t.staging.klen = s.staging.klen
  kovf : t.staging.kovf = s.staging.kovf
  key : ∀ k : Byte, k.toNat < s.staging.klen.val → t.staging.K.read k = s.staging.K.read k
  cipher : s.phase ≠ .uninit → s.cipher.Agrees t.cipher
  port : t.port = s.port
  responses : t.responses = s.responses

/-- The Cipher State holds, entry by entry and cursor by cursor, what the source's algorithm has. -/
def CipherState.Matches (c : CipherState) (r : Reference.Cipher) : Prop :=
  (∀ k : Byte, (c.S.read k).toNat = r.perm k.toNat) ∧ c.i.toNat = r.i ∧ c.j.toNat = r.j

/-- The staged key as the source's byte sequence: `K[n]` as a number (R11). -/
def stagedKey (b : Staging) (n : Nat) : Nat := (b.K.read (BitVec.ofNat 8 n)).toNat

/-- A list of key bytes as the source's byte sequence. -/
def listedKey (ks : List Byte) (n : Nat) : Nat := (ks.getD n 0x00#8).toNat

/-- `PHASE` as a number (R20). -/
def phaseNumber : Phase → Nat
  | .uninit => 0
  | .scheduled => 1
  | .running => 2

/-- The `STATUS` view as a number, by the bit positions of R21. -/
def statusNumber (s : State) : Nat :=
  phaseNumber s.phase * 1024 + (if s.staging.kovf = true then 512 else 0) + s.staging.klen.val

/-- The staged key is one `INIT` accepts (40_key_scheduler.md R53). -/
def Staging.valid (b : Staging) : Prop := b.kovf = false ∧ 5 ≤ b.klen.val

/-- A key length `initialize` accepts: "5 to 256 bytes" (R53). -/
def validLength (n : Nat) : Prop := 5 ≤ n ∧ n ≤ 256

/-- The word is `INIT` (R43). -/
def isInitWord (w : Word) : Prop := decode w = .ok .init

/-- The word is an `XOR` (R43). -/
def isXorWord (w : Word) : Prop := ∃ d : Byte, decode w = .ok (.xor d)

/-- `n` steps of the PRGA, outputs dropped. -/
def prgaSteps : Nat → CipherState → CipherState
  | 0, c => c
  | n + 1, c => prgaSteps n (prga c).2

end Sys2Proof.Machine
end

