-- ==== Sys2Proof/Certificates/Slice0/Obligations.lean ====
section
/-! DEFINITION. The statements for the provers, each from a numbered rule of spec/ or resting on a section of it.
A statement that names no premise holds of every state, those no run reaches among them. -/

open Sys2Proof Sys2Proof.Machine

/-! ### Encoding -/

/-- R40, R41, R43: for every word and command, the decoder reads the command from exactly the word the encoder
writes, whatever its operand. -/
def Obligations.DecodeReadsExactlyWhatEncodeWrites : Prop :=
  ∀ (i : Instr) (w : Word), i.wf = true → (decode w = .ok i ↔ w = encode i)

/-- R43: the legal words, command by command; 515 of them, and 65,021 others. -/
def Obligations.LegalWordsAreExactlyTheListedOnes : Prop :=
  (∀ w : Word, decode w = .ok .kclr ↔ w = 0x1000#16) ∧
  (∀ (w : Word) (d : Byte), decode w = .ok (.kpush d) ↔ w.toNat = 0x2000 + d.toNat) ∧
  (∀ w : Word, decode w = .ok .init ↔ w = 0x3000#16) ∧
  (∀ (w : Word) (d : Byte), decode w = .ok (.xor d) ↔ w.toNat = 0x4000 + d.toNat) ∧
  (∀ w : Word, decode w = .ok .stat ↔ w = 0x5000#16) ∧
  ∃ legal illegal : List Word,
    legal.Nodup ∧ illegal.Nodup ∧ legal.length = 515 ∧ illegal.length = 65021 ∧
    (∀ w : Word, w ∈ legal ↔ ∃ i : Instr, decode w = .ok i) ∧
    ∀ w : Word, w ∈ illegal ↔ ∃ e : DecodeError, decode w = .error e

/-- R44: a word that meets (a), (b) or (c) is answered `ILLEGAL`, changes no state and leaves the core ready for the
next event; every other word is a command. -/
def Obligations.IllegalWordsAnswerIllegalAndChangeNothing : Prop :=
  ∀ (w : Word) (s : State) (rest : List HostEvent), s.port = .command w :: rest →
    ((w.toNat / 4096 = 0 ∨ 6 ≤ w.toNat / 4096) ∨ w.toNat / 256 % 16 ≠ 0 ∨
        ((w.toNat / 4096 = 1 ∨ w.toNat / 4096 = 3 ∨ w.toNat / 4096 = 5) ∧ w.toNat % 256 ≠ 0) →
      ∃ t : State, step s = .next t ∧ SameCore s t ∧ t.port = rest ∧ t.responses = s.responses ++ [0x4000#16]) ∧
    (¬((w.toNat / 4096 = 0 ∨ 6 ≤ w.toNat / 4096) ∨ w.toNat / 256 % 16 ≠ 0 ∨
        ((w.toNat / 4096 = 1 ∨ w.toNat / 4096 = 3 ∨ w.toNat / 4096 = 5) ∧ w.toNat % 256 ≠ 0)) →
      ∃ i : Instr, decode w = .ok i)

/-- R43: words written out bit by bit from the table's encodings, one or more per command. -/
def Obligations.WordsDecodeAsTheTableSpellsThem : Prop :=
  decode 0b0001000000000000#16 = .ok .kclr ∧
  decode 0b0010000010100101#16 = .ok (.kpush 0b10100101#8) ∧
  decode 0b0011000000000000#16 = .ok .init ∧
  decode 0b0100000000001111#16 = .ok (.xor 0b00001111#8) ∧
  decode 0b0101000000000000#16 = .ok .stat

/-- R41: `OP = w[15:12]`, `RSV = w[11:8]`, `D = w[7:0]`, as arithmetic on the word's number. -/
def Obligations.FieldsAreCutAtTheirBitPositions : Prop :=
  ∀ w : Word,
    (opField w).toNat = w.toNat / 4096 ∧ (rsvField w).toNat = w.toNat / 256 % 16 ∧
    (dataField w).toNat = w.toNat % 256 ∧ w = opField w ++ rsvField w ++ dataField w

/-- R32 (the byte-wide link): the high byte goes first, and the command comes back with the bytes after it. -/
def Obligations.ByteLinkCarriesTheHighByteFirst : Prop :=
  ∀ (w : Word) (i : Instr) (rest : List Byte),
    bytesOfWord w = [BitVec.ofNat 8 (w.toNat / 256), BitVec.ofNat 8 (w.toNat % 256)] ∧
    (decode w = .ok i → decodeBytes (bytesOfWord w ++ rest) = .ok (i, rest))

/-- R49: each command assembles to `(OP << 12) | d`, and the pseudo-instructions to their expansions. -/
def Obligations.PseudoInstructionsExpandToTheirWords : Prop :=
  (∀ i : Instr, (encode i).toNat = (opcodeOf i).toNat * 4096 + (operandOf i).toNat) ∧
  ∀ ks ds : List Byte,
    pseudoWords (.key ks) = 0x1000#16 :: ks.map (fun k => 0x2000#16 + k.setWidth 16) ∧
    pseudoWords (.initKey ks) = 0x1000#16 :: ks.map (fun k => 0x2000#16 + k.setWidth 16) ++ [0x3000#16] ∧
    pseudoWords .ks = [0x4000#16] ∧
    pseudoWords (.apply ds) = ds.map (fun d => 0x4000#16 + d.setWidth 16) ∧
    pseudoWords (.applyStatic ks ds) = 0x1000#16 :: ks.map (fun k => 0x2000#16 + k.setWidth 16) ++ [0x3000#16] ∧
    guardedWords (.applyStatic ks ds) = ds.map (fun d => 0x4000#16 + d.setWidth 16)

/-! ### The step -/

/-- R46: a step takes the next command word off the port and performs the command the decoder reads from it; a word
it reads none from is answered `ILLEGAL`. -/
def Obligations.StepPerformsTheDecodedCommand : Prop :=
  ∀ (s : State) (w : Word) (rest : List HostEvent), s.port = .command w :: rest →
    (∀ i : Instr, decode w = .ok i → i.wf = true → step s = exec i (s.setPort rest)) ∧
    (∀ e : DecodeError, decode w = .error e → step s = .next ((s.setPort rest).deliver 0x4000#16))

/-- R42, R80: every command word, legal or not, gets exactly one response; its code names its cause (for `ILLEGAL`,
R44 (a), (b), (c) on the word's number), and its payload is what the table gives that code. -/
def Obligations.EveryCommandGetsOneResponseThatNamesItsCause : Prop :=
  ∀ (s : State) (w : Word) (rest : List HostEvent), s.port = .command w :: rest →
    ∃ (t : State) (r : Word), step s = .next t ∧ t.port = rest ∧ t.responses = s.responses ++ [r] ∧
      r.toNat / 4096 ≤ 4 ∧
      (r.toNat / 4096 = 0 →
        (∃ d : Byte, decode w = .ok (.xor d) ∧ r.toNat % 4096 = (xorByte d (prga s.cipher).1).toNat) ∨
        (decode w = .ok .stat ∧ r.toNat % 4096 = statusNumber s) ∨
        ((decode w = .ok .kclr ∨ (∃ d : Byte, decode w = .ok (.kpush d)) ∨ decode w = .ok .init) ∧
          r.toNat % 4096 = 0)) ∧
      (r.toNat / 4096 = 1 ↔ isInitWord w ∧ s.staging.klen.val < 5 ∧ s.staging.kovf = false) ∧
      (r.toNat / 4096 = 1 → r = 0x1005#16) ∧
      (r.toNat / 4096 = 2 ↔ isInitWord w ∧ s.staging.kovf = true) ∧
      (r.toNat / 4096 = 2 → r = 0x2100#16) ∧
      (r.toNat / 4096 = 3 ↔ isXorWord w ∧ s.phase = .uninit) ∧
      (r.toNat / 4096 = 3 → r = 0x3000#16) ∧
      (r.toNat / 4096 = 4 ↔ legalWord w = false) ∧
      (r.toNat / 4096 = 4 → r = 0x4000#16)

/-- R47, R84: the machine stops on nothing but a word written while another is in flight, and there it is refused by
that name (the refusal is the model's choice, log 9). -/
def Obligations.StepStopsOnlyOnAnOverlappingWrite : Prop :=
  ∀ s : State,
    ((∃ (a b : Word) (rest : List HostEvent), s.port = .overlap a b :: rest) ∧ step s = .refused .commandInFlight) ∨
    ((¬∃ (a b : Word) (rest : List HostEvent), s.port = .overlap a b :: rest) ∧ ∃ t : State, step s = .next t)

/-- R29, R90: a reset, also one that interrupts a command, leaves `UNINIT`, `KLEN = 0`, `KOVF = 0` and so a `STATUS`
of 0; it delivers no response and leaves the host's later events alone (what becomes of the host's own lists
is the model's choice, log 8). -/
def Obligations.ResetEventRestoresTheSpecifiedResetValues : Prop :=
  ∀ (s : State) (w : Word) (rest : List HostEvent), s.port = .reset :: rest ∨ s.port = .resetDuring w :: rest →
    ∃ t : State, step s = .next t ∧ t.phase = .uninit ∧ t.staging.klen.val = 0 ∧ t.staging.kovf = false ∧
      statusView t.phase t.staging = 0x000#12 ∧ t.responses = s.responses ∧ t.port = rest

/-- R37, R98: the machine run over a port that holds command words performs them in the order written, each wholly
before the next. -/
def Obligations.RunPerformsThePortInOrder : Prop :=
  ∀ (ws : List Word) (s : State) (rest : List HostEvent),
    Host.Core.run Sys2Proof.core ws.length (s.setPort (ws.map HostEvent.command ++ rest)) =
      performAll ws (s.setPort rest)

/-! ### Invariants and whole-machine rules -/

/-- The state after reset meets the invariant; its arrays hold what logs 3, 5 and 6 choose. -/
def Obligations.ResetMeetsTheInvariant : Prop := State.reset.Inv

/-- R19, R26, R30: from every state that meets it, a step keeps the invariant: both arrays in the
model's canonical form (log 6), a permutation in `S` wherever a Cipher State exists, an overflow only of a full key. -/
def Obligations.StepKeepsTheInvariant : Prop :=
  ∀ s t : State, s.Inv → step s = .next t → t.Inv

/-- R24: only a successful `INIT` makes a Cipher State where there was none, and after that only an accepted `XOR`
(or another `INIT`) changes it; every other command, and every rejected one, leaves `S`, `i` and `j` alone. -/
def Obligations.OnlyInitAndXorWriteTheCipherState : Prop :=
  ∀ (s t : State) (w : Word) (rest : List HostEvent), s.port = .command w :: rest → step s = .next t →
    (s.phase = .uninit → t.phase ≠ .uninit → isInitWord w ∧ s.staging.valid) ∧
    (¬(isInitWord w ∧ s.staging.valid) → ¬(isXorWord w ∧ s.phase ≠ .uninit) → t.cipher = s.cipher)

/-- R20: what each event does to `PHASE`, its encoding, and that `SCHEDULED` and `RUNNING` differ in `STAT` alone. -/
def Obligations.PhaseMovesAsTheTableSays : Prop :=
  (∀ p : Phase, p.code.toNat = phaseNumber p) ∧
  (∀ (s t : State) (e : HostEvent) (rest : List HostEvent), s.port = e :: rest → step s = .next t →
    ((e = .reset ∨ ∃ w : Word, e = .resetDuring w) → t.phase = .uninit) ∧
    ∀ w : Word, e = .command w →
      (isInitWord w → s.staging.valid → t.phase = .scheduled) ∧
      (isInitWord w → ¬s.staging.valid → t.phase = .uninit) ∧
      (isXorWord w → s.phase ≠ .uninit → t.phase = .running) ∧
      (isXorWord w → s.phase = .uninit → t.phase = .uninit) ∧
      (¬isInitWord w → ¬isXorWord w → t.phase = s.phase)) ∧
  ∀ (i : Instr) (s : State), i ≠ .stat →
    ∃ t u : State, exec i (s.setPhase .scheduled) = .next t ∧ exec i (s.setPhase .running) = .next u ∧
      u.cipher = t.cipher ∧ u.staging = t.staging ∧ u.port = t.port ∧ u.responses = t.responses ∧
      (u.phase = t.phase ∨ (t.phase = .scheduled ∧ u.phase = .running))

/-- R28 (the written state): what each command leaves unchanged. `KCLR`, `KPUSH` and `STAT` leave `S`, `i`, `j` and
`PHASE`; `XOR` and `STAT` leave `K`, `KLEN` and `KOVF`; `KPUSH` leaves every byte of `K` but the one at `KLEN`, and all
of them when the buffer is full; a rejected `XOR` and a failed `INIT` leave `S`, `i` and `j`. Every command leaves the
host's later events and the earlier responses. -/
def Obligations.CommandsLeaveTheRestUnchanged : Prop :=
  ∀ (i : Instr) (s t : State), exec i s = .next t →
    t.port = s.port ∧
    (∃ r : Word, t.responses = s.responses ++ [r]) ∧
    (i = .kclr ∨ (∃ d : Byte, i = .kpush d) ∨ i = .stat → t.cipher = s.cipher ∧ t.phase = s.phase) ∧
    ((∃ d : Byte, i = .xor d) ∨ i = .stat → t.staging = s.staging) ∧
    (∀ d : Byte, i = .kpush d → ∀ k : Byte, k.toNat ≠ s.staging.klen.val → t.staging.K.read k = s.staging.K.read k) ∧
    (∀ d : Byte, i = .xor d → s.phase = .uninit → t.cipher = s.cipher ∧ t.phase = s.phase) ∧
    (i = .init → ¬s.staging.valid → t.cipher = s.cipher)

/-- R27: no command reads what nothing has written: from two states that agree on everything written, a step gives
the same response (or the same stop) and states that again agree on everything written. So the values the model gives
`S`, `i`, `j` and `K` at reset (logs 3, 4, 5, 6) reach no response. -/
def Obligations.NothingUnwrittenIsEverRead : Prop :=
  ∀ s t : State, s.AgreesWhereWritten t →
    (∃ s' t' : State, step s = .next s' ∧ step t = .next t' ∧ s'.AgreesWhereWritten t') ∨
    ∃ r : Refusal, step s = .refused r ∧ step t = .refused r

/-- R23: `S`, `i`, `j` and `K` are hidden: the response of every command but an accepted `XOR` is the same in two
states with the same `PHASE`, `KLEN` and `KOVF`. -/
def Obligations.OnlyXorShowsTheCipherState : Prop :=
  ∀ (i : Instr) (s t : State), (∀ d : Byte, i = .xor d → s.phase = .uninit) →
    t.phase = s.phase → t.staging.klen = s.staging.klen → t.staging.kovf = s.staging.kovf →
    ∃ (s' t' : State) (r : Word), exec i s = .next s' ∧ exec i t = .next t' ∧
      s'.responses = s.responses ++ [r] ∧ t'.responses = t.responses ++ [r]

/-! ### The Key Scheduler -/

/-- R51: `KCLR` empties the staging buffer, answers `OK`, and leaves a running Cipher State running. -/
def Obligations.KclrEmptiesTheStagingBuffer : Prop :=
  (∀ w : Word, decode w = .ok .kclr ↔ w = 0x1000#16) ∧
  ∀ s : State, ∃ t : State, exec .kclr s = .next t ∧
    (∀ k : Byte, t.staging.K.read k = 0x00#8) ∧ t.staging.klen.val = 0 ∧ t.staging.kovf = false ∧
    t.cipher = s.cipher ∧ t.phase = s.phase ∧ t.port = s.port ∧ t.responses = s.responses ++ [0x0000#16]

/-- R52: `KPUSH d` appends `d` at `K[KLEN]` while there is room, and otherwise discards it and sets `KOVF`; it always
answers `OK` and leaves `S`, `i`, `j` and `PHASE`. -/
def Obligations.KpushAppendsAKeyByteOrSetsTheOverflow : Prop :=
  (∀ (w : Word) (d : Byte), decode w = .ok (.kpush d) ↔ w.toNat = 0x2000 + d.toNat) ∧
  ∀ (d : Byte) (s : State), ∃ t : State, exec (.kpush d) s = .next t ∧
    t.cipher = s.cipher ∧ t.phase = s.phase ∧ t.port = s.port ∧ t.responses = s.responses ++ [0x0000#16] ∧
    (s.staging.klen.val < 256 →
      t.staging.klen.val = s.staging.klen.val + 1 ∧ t.staging.kovf = s.staging.kovf ∧
      ∀ k : Byte, t.staging.K.read k = if k.toNat = s.staging.klen.val then d else s.staging.K.read k) ∧
    (s.staging.klen.val = 256 →
      t.staging.klen.val = 256 ∧ t.staging.kovf = true ∧ t.staging.K = s.staging.K)

/-- R54: after any number of rounds the KSA on the core's storage holds what the source's algorithm has, and after
all 256 both cursors are 0; nothing of the earlier `S`, `i`, `j` is left. -/
def Obligations.KsaRefinesTheSourceAlgorithm : Prop :=
  ∀ (b : Staging) (c : CipherState), 5 ≤ b.klen.val →
    (∀ n : Nat, n ≤ 256 →
      (∀ k : Byte, ((ksaRounds b.K b.klen.val n c).S.read k).toNat =
        (Reference.ksaRounds (stagedKey b) b.klen.val n).1 k.toNat) ∧
      (ksaRounds b.K b.klen.val n c).j.toNat = (Reference.ksaRounds (stagedKey b) b.klen.val n).2 ∧
      (0 < n → (ksaRounds b.K b.klen.val n c).i.toNat = n - 1)) ∧
    (ksa b.K b.klen.val c).Matches (Reference.initial (stagedKey b) b.klen.val)

/-- R26, R55 (postcondition): the KSA leaves a bijection of 0..255 in `S`, whatever key and whatever was in `S`. Two
clauses are the model's own: that `S` stays in canonical form is about the model's form of an array (log 6), and the
lengths outside 5..256, where R54 leaves the KSA undefined, are about the total function the model has (log 11). -/
def Obligations.KsaLeavesAPermutation : Prop :=
  ∀ (K : Memory) (klen : Nat) (c : CipherState),
    (ksa K klen c).S.isPermutation ∧ (c.S.wf = true → (ksa K klen c).S.wf = true)

/-- R55: `INIT` with a valid key builds the source's Cipher State and answers `OK`; with any other it answers the
violated threshold, leaves `S`, `i`, `j` and goes to `UNINIT`. On both outcomes the staged key is cleared. -/
def Obligations.InitBuildsACipherStateOrRejectsTheKey : Prop :=
  (∀ w : Word, decode w = .ok .init ↔ w = 0x3000#16) ∧
  ∀ s : State, ∃ t : State, exec .init s = .next t ∧
    (∀ k : Byte, t.staging.K.read k = 0x00#8) ∧ t.staging.klen.val = 0 ∧ t.staging.kovf = false ∧
    t.port = s.port ∧
    (s.staging.valid →
      t.cipher.Matches (Reference.initial (stagedKey s.staging) s.staging.klen.val) ∧
      t.cipher.S.isPermutation ∧ t.phase = .scheduled ∧ t.responses = s.responses ++ [0x0000#16]) ∧
    (s.staging.kovf = true →
      t.cipher = s.cipher ∧ t.phase = .uninit ∧ t.responses = s.responses ++ [0x2100#16]) ∧
    (s.staging.kovf = false → s.staging.klen.val < 5 →
      t.cipher = s.cipher ∧ t.phase = .uninit ∧ t.responses = s.responses ++ [0x1005#16])

/-- R25: the `S`, `i` and `j` that a successful `INIT` leaves are a function of the staged key alone: from two states
with the same `KLEN` and the same `K[0..KLEN)` they agree entry by entry; driven by the same data from there, both
cores give the same responses. The clause that the two Cipher States are the same data where `S` was in canonical form
is about the model's own form of an array (log 6). -/
def Obligations.InitDependsOnTheKeyAlone : Prop :=
  ∀ (s t : State) (ds : List Byte), s.staging.valid → t.staging.valid → t.staging.klen = s.staging.klen →
    (∀ k : Byte, k.toNat < s.staging.klen.val → t.staging.K.read k = s.staging.K.read k) →
    ∃ (s₁ t₁ s₂ t₂ : State) (rs : List Word), exec .init s = .next s₁ ∧ exec .init t = .next t₁ ∧
      s₁.cipher.Agrees t₁.cipher ∧
      (s.cipher.S.wf = true → t.cipher.S.wf = true → t₁.cipher = s₁.cipher) ∧
      performAll (applyWords ds) s₁ = .next s₂ ∧ performAll (applyWords ds) t₁ = .next t₂ ∧
      s₂.responses = s₁.responses ++ rs ∧ t₂.responses = t₁.responses ++ rs ∧ s₂.cipher.Agrees t₂.cipher

/-- R18, R19, R32: after `KCLR` and one `KPUSH` per key byte, `KLEN` counts the bytes up to 256, `KOVF` says that
there were more, the n-th byte stands at `K[n]` and every other entry is 0; the Cipher State is untouched. -/
def Obligations.KeyBytesAreStagedInOrder : Prop :=
  ∀ (ks : List Byte) (s : State), ∃ t : State, performAll (keyWords ks) s = .next t ∧
    t.staging.klen.val = min ks.length 256 ∧ (t.staging.kovf = true ↔ 256 < ks.length) ∧
    (∀ k : Byte, t.staging.K.read k = ks.getD k.toNat 0x00#8) ∧
    t.cipher = s.cipher ∧ t.phase = s.phase ∧ t.port = s.port ∧
    t.responses = s.responses ++ List.replicate (ks.length + 1) 0x0000#16

/-- R53, R56: `INITIALIZE key` from any state whatever: the key-length table, the Cipher State the source's
`initialize` builds, and a result that nothing staged before can change. -/
def Obligations.InitializeAnswersByKeyLength : Prop :=
  ∀ (ks : List Byte) (s : State), ∃ t : State, performAll (initKeyWords ks) s = .next t ∧
    t.staging.klen.val = 0 ∧ t.staging.kovf = false ∧ t.port = s.port ∧
    (validLength ks.length →
      t.cipher.Matches (Reference.initial (listedKey ks) ks.length) ∧ t.phase = .scheduled ∧
      t.responses = s.responses ++ List.replicate (ks.length + 1) 0x0000#16 ++ [0x0000#16]) ∧
    (ks.length < 5 → t.cipher = s.cipher ∧ t.phase = .uninit ∧
      t.responses = s.responses ++ List.replicate (ks.length + 1) 0x0000#16 ++ [0x1005#16]) ∧
    (256 < ks.length → t.cipher = s.cipher ∧ t.phase = .uninit ∧
      t.responses = s.responses ++ List.replicate (ks.length + 1) 0x0000#16 ++ [0x2100#16])

/-! ### The Keystream Generator and the Applicator -/

/-- R60: one step of the PRGA on the core's storage is one `next_byte` of the source, output and state. -/
def Obligations.PrgaRefinesNextByte : Prop :=
  ∀ (c : CipherState) (r : Reference.Cipher), c.Matches r →
    (prga c).2.Matches (Reference.advance r) ∧ (prga c).1.toNat = Reference.output (Reference.advance r)

/-- R61: every call moves `i` on by one, so that the state never stays as it was, and keeps `S` a bijection. The last
clause, that `S` stays in canonical form, is about the model's own form of an array (log 6). -/
def Obligations.PrgaAlwaysAdvances : Prop :=
  ∀ (c : CipherState) (n : Nat),
    (prga c).2 ≠ c ∧ (prgaSteps n c).i.toNat = (c.i.toNat + n) % 256 ∧
    (c.S.isPermutation → (prgaSteps n c).S.isPermutation) ∧ (c.S.wf = true → (prgaSteps n c).S.wf = true)

/-- R63: `XOR d` answers `d ⊕ ks` after one step of the PRGA and goes to `RUNNING` once a Cipher State exists, and is
`NOT_READY` with nothing written otherwise. -/
def Obligations.XorAppliesOneKeystreamByte : Prop :=
  (∀ (w : Word) (d : Byte), decode w = .ok (.xor d) ↔ w.toNat = 0x4000 + d.toNat) ∧
  ∀ (d : Byte) (s : State), ∃ (t : State) (r : Word), exec (.xor d) s = .next t ∧
    t.staging = s.staging ∧ t.port = s.port ∧ t.responses = s.responses ++ [r] ∧
    (s.phase = .uninit → t.cipher = s.cipher ∧ t.phase = .uninit ∧ r = 0x3000#16) ∧
    (s.phase ≠ .uninit →
      t.cipher = (prga s.cipher).2 ∧ t.phase = .running ∧ r.toNat / 256 = 0 ∧
      r.toNat % 256 = (d ^^^ (prga s.cipher).1).toNat)

/-- R64: with a Cipher State there is one keystream byte `ks` that a zero byte returns, that masks every byte, and
that masks itself to 0; where it is 0 the byte comes back unchanged, the state advanced all the same. -/
def Obligations.XorWithTheKeystreamByteCorners : Prop :=
  ∀ s : State, s.phase ≠ .uninit → ∃ ks : Byte,
    ∀ d : Byte, ∃ t : State, exec (.xor d) s = .next t ∧ t.cipher ≠ s.cipher ∧
      t.responses = s.responses ++ [(d ^^^ ks).setWidth 16] ∧
      (d = 0x00#8 → t.responses = s.responses ++ [ks.setWidth 16]) ∧
      (d = ks → t.responses = s.responses ++ [0x0000#16]) ∧
      (ks = 0x00#8 → t.responses = s.responses ++ [d.setWidth 16])

/-- R65: `apply` on a Cipher State cannot fail: every response is `OK`, the buffer keeps its length, and the core has
taken exactly one step of the PRGA per byte, from wherever it stood. -/
def Obligations.ApplyNeverFailsOnACipherState : Prop :=
  ∀ (ds : List Byte) (s : State), s.phase ≠ .uninit →
    ∃ (t : State) (out : List Byte), applyBuffer ds s = .next (t, out) ∧ performAll (applyWords ds) s = .next t ∧
      out.length = ds.length ∧ t.responses = s.responses ++ out.map (fun b => b.setWidth 16) ∧
      t.cipher = prgaSteps ds.length s.cipher ∧ t.staging = s.staging ∧ t.port = s.port ∧ t.phase ≠ .uninit ∧
      ∀ n : Nat, n < ds.length →
        out.getD n 0x00#8 = xorByte (ds.getD n 0x00#8) (prga (prgaSteps n s.cipher)).1

/-- R68 (keystream dependence): after `INITIALIZE key` with a valid key, from any state whatever, the n-th `XOR d`
answers `d ⊕ ks_n(key)`, where `ks_n(key)` is byte n of the source's keystream for that key; and the Cipher State is
the source's after so many calls. -/
def Obligations.XorResponsesAreTheSourceKeystream : Prop :=
  ∀ (ks ds : List Byte) (s : State), validLength ks.length →
    ∃ (t : State) (rs : List Word), performAll (initKeyWords ks ++ applyWords ds) s = .next t ∧
      t.responses = s.responses ++ List.replicate (ks.length + 2) 0x0000#16 ++ rs ∧ rs.length = ds.length ∧
      (∀ n : Nat, n < ds.length → (rs.getD n 0x0000#16).toNat =
        (ds.getD n 0x00#8).toNat ^^^ Reference.keystream (listedKey ks) ks.length n) ∧
      t.cipher.Matches (Reference.after (Reference.initial (listedKey ks) ks.length) ds.length) ∧
      t.phase = (if ds = [] then .scheduled else .running) ∧
      t.staging.klen.val = 0 ∧ t.staging.kovf = false

/-- R97: `KeyedState(key, n)` from any state whatever: `S`, `i` and `j` are determined by the key and `n`, `PHASE` is
`SCHEDULED` when `n = 0` and `RUNNING` otherwise, and `KLEN = KOVF = 0`. -/
def Obligations.KeyedStateIsDeterminedByKeyAndCount : Prop :=
  ∀ (ks : List Byte) (n : Nat) (s : State), validLength ks.length →
    ∃ t : State, keyedState ks n s = .next t ∧
      t.cipher.Matches (Reference.after (Reference.initial (listedKey ks) ks.length) n) ∧
      t.phase = (if n = 0 then .scheduled else .running) ∧ t.staging.klen.val = 0 ∧ t.staging.kovf = false

/-- R68 (round trip, involution): `apply_static` with a valid key on its own output gives the buffer back, whatever
states the two runs start from. -/
def Obligations.ApplyStaticTwiceIsTheIdentity : Prop :=
  ∀ (ks ds : List Byte) (s t : State), validLength ks.length →
    ∃ (s' t' : State) (enc : List Byte),
      applyStatic ks ds s = .next { core := s', buffer := enc, error := none } ∧
      applyStatic ks enc t = .next { core := t', buffer := ds, error := none }

/-- R68 (chunking invariance): a buffer applied in two chunks gives the responses and the Cipher State of the whole
buffer, whatever `KCLR`, `KPUSH`, `STAT` and illegal words stand between the chunks. -/
def Obligations.ChunkingDoesNotChangeTheStream : Prop :=
  ∀ (a b : List Byte) (mid : List Word) (s : State), s.phase ≠ .uninit →
    (∀ w ∈ mid, ¬isInitWord w ∧ ¬isXorWord w) →
    ∃ (t t' : State) (ra rm rb : List Word),
      performAll (applyWords (a ++ b)) s = .next t ∧
      performAll (applyWords a ++ mid ++ applyWords b) s = .next t' ∧
      t'.cipher = t.cipher ∧ ra.length = a.length ∧ rm.length = mid.length ∧ rb.length = b.length ∧
      t.responses = s.responses ++ ra ++ rb ∧ t'.responses = s.responses ++ ra ++ rm ++ rb

/-- R66: `apply_static` with a key of a wrong length returns the source's error with its threshold, issues no `XOR`
and leaves the buffer; with a valid key it is `INITIALIZE key` and then the resumable form on the whole buffer. The
words the pseudo-instruction `APPLY_STATIC` issues do the same to the core. -/
def Obligations.ApplyStaticStopsOnAKeyError : Prop :=
  ∀ (ks ds : List Byte) (s : State),
    (ks.length < 5 → ∃ t : State, performAll (initKeyWords ks) s = .next t ∧ t.phase = .uninit ∧
      runPseudo (.applyStatic ks ds) s = .next t ∧
      applyStatic ks ds s = .next { core := t, buffer := ds, error := some (.keyTooShort 5) }) ∧
    (256 < ks.length → ∃ t : State, performAll (initKeyWords ks) s = .next t ∧ t.phase = .uninit ∧
      runPseudo (.applyStatic ks ds) s = .next t ∧
      applyStatic ks ds s = .next { core := t, buffer := ds, error := some (.keyTooLong 256) }) ∧
    (validLength ks.length → ∃ (t u : State) (out : List Byte), performAll (initKeyWords ks) s = .next t ∧
      applyBuffer ds t = .next (u, out) ∧ performAll (applyWords ds) t = .next u ∧
      runPseudo (.applyStatic ks ds) s = .next u ∧
      applyStatic ks ds s = .next { core := u, buffer := out, error := none })

/-- R69: `APPLY` of no bytes issues no command; `APPLY_STATIC` of no bytes still validates the key, and with a valid
one leaves a fresh Cipher State with no keystream byte consumed. -/
def Obligations.EmptyBufferIsANoOp : Prop :=
  (∀ s : State, applyWords [] = [] ∧ applyBuffer [] s = .next (s, [])) ∧
  ∀ (ks : List Byte) (s : State),
    (validLength ks.length → ∃ t : State, applyStatic ks [] s = .next { core := t, buffer := [], error := none } ∧
      t.phase = .scheduled ∧ t.cipher.Matches (Reference.initial (listedKey ks) ks.length)) ∧
    (ks.length < 5 → ∃ t : State,
      applyStatic ks [] s = .next { core := t, buffer := [], error := some (.keyTooShort 5) }) ∧
    (256 < ks.length → ∃ t : State,
      applyStatic ks [] s = .next { core := t, buffer := [], error := some (.keyTooLong 256) })

/-- R64, R92, R95: where no Cipher State exists, no words but a successful `INIT` bring out a keystream byte: until an
`INIT` is written, every `XOR` answers `NOT_READY` and `S`, `i`, `j` stay as they are. -/
def Obligations.NoKeystreamWithoutInit : Prop :=
  ∀ (ws : List Word) (s : State), s.phase = .uninit → (∀ w ∈ ws, ¬isInitWord w) →
    ∃ (t : State) (rs : List Word), performAll ws s = .next t ∧ t.phase = .uninit ∧ t.cipher = s.cipher ∧
      t.responses = s.responses ++ rs ∧ rs.length = ws.length ∧
      ∀ n : Nat, n < ws.length → isXorWord (ws.getD n 0x0000#16) → rs.getD n 0x0000#16 = 0x3000#16

/-! ### The status read, repetition, several cores -/

/-- R70: `STAT` answers `PHASE`, `KOVF` and `KLEN` at their bit positions, at most 0xB00, never `PHASE = 3`, and writes
no state. -/
def Obligations.StatAnswersTheStatusView : Prop :=
  (∀ w : Word, decode w = .ok .stat ↔ w = 0x5000#16) ∧
  ∀ s : State, ∃ (t : State) (r : Word), exec .stat s = .next t ∧ SameCore s t ∧ t.port = s.port ∧
    t.responses = s.responses ++ [r] ∧ r.toNat = statusNumber s ∧ r.toNat ≤ 0xB00 ∧
    r.toNat / 1024 = phaseNumber s.phase ∧ (r.toNat / 512 % 2 = 1 ↔ s.staging.kovf = true) ∧
    r.toNat % 512 = s.staging.klen.val

/-- R71: a `STAT` put anywhere into a sequence of words changes neither the other responses nor the final state. -/
def Obligations.StatChangesNoOtherResponse : Prop :=
  ∀ (ws vs : List Word) (s : State),
    ∃ (t t' : State) (ra rb : List Word) (r : Word), performAll (ws ++ vs) s = .next t ∧
      performAll (ws ++ 0x5000#16 :: vs) s = .next t' ∧ SameCore t t' ∧ t'.port = t.port ∧
      ra.length = ws.length ∧ rb.length = vs.length ∧
      t.responses = s.responses ++ ra ++ rb ∧ t'.responses = s.responses ++ ra ++ r :: rb

/-- R35: `STAT` repeated answers the same word; `KCLR` repeated leaves the core as the first left it; the second of
two `INIT`s fails with `KEY_TOO_SHORT` and leaves `UNINIT`; an accepted `XOR` never leaves the Cipher State as it was;
`KPUSH` appends a byte or sets `KOVF`. That the second `KCLR` leaves the very same data is said where `K` is in the
model's canonical form (log 6). -/
def Obligations.RepetitionOfCommands : Prop :=
  ∀ s : State,
    (∃ (t u : State) (r : Word), exec .stat s = .next t ∧ exec .stat t = .next u ∧
      u.responses = s.responses ++ [r, r]) ∧
    (s.staging.K.wf = true → ∃ t u : State, exec .kclr s = .next t ∧ exec .kclr t = .next u ∧ SameCore t u) ∧
    (∃ t u : State, exec .init s = .next t ∧ exec .init t = .next u ∧ u.phase = .uninit ∧
      u.cipher = t.cipher ∧ u.responses = t.responses ++ [0x1005#16]) ∧
    (∀ d : Byte, s.phase ≠ .uninit → ∃ t : State, exec (.xor d) s = .next t ∧ t.cipher ≠ s.cipher) ∧
    (∀ d : Byte, ∃ t : State, exec (.kpush d) s = .next t ∧
      (t.staging.klen.val = s.staging.klen.val + 1 ∨ t.staging.kovf = true))

/-- R88: cores share no state: a move of one core leaves every other as it was and is that core's own step; and two
moves of different cores that both go on may be taken in either order. -/
def Obligations.CoresShareNoState : Prop :=
  (∀ (k : Nat) (p q : Platform), platformStep k p = .next q →
    q.length = p.length ∧ (∀ n : Nat, n ≠ k → q[n]? = p[n]?) ∧
    ∀ s : State, p[k]? = some s → ∃ t : State, step s = .next t ∧ q[k]? = some t) ∧
  ∀ (k l : Nat) (p : Platform) (s t s' t' : State), k ≠ l → p[k]? = some s → p[l]? = some t →
    step s = .next s' → step t = .next t' →
    ∃ q : Platform, platformRun [k, l] p = .next q ∧ platformRun [l, k] p = .next q ∧
      q[k]? = some s' ∧ q[l]? = some t'
end

