-- ==== Sys2Proof/Laws/Memory.lean ====
section
/-! SUPPORT. The laws of the two internal arrays: a read after a write, the canonical form kept, equal contents are
equal data, and what a swap does. -/

namespace Sys2Proof.Machine

theorem Memory.lookup_nil (a : Nat) : Memory.lookup [] a = unlistedByte := rfl

theorem Memory.lookup_cons (c : Host.Cell) (rest : Memory) (a : Nat) :
    Memory.lookup (c :: rest) a =
      if c.1 < a then Memory.lookup rest a else if c.1 = a then c.2 else unlistedByte := by
  simp only [Memory.lookup]
  by_cases h : c.1 < a
  · have hb : Nat.blt c.1 a = true := by simpa [Nat.blt, Nat.ble_eq] using h
    simp [h, hb]
  · have hb : Nat.blt c.1 a = false := by
      rw [Bool.eq_false_iff]
      simpa [Nat.blt, Nat.ble_eq] using h
    by_cases e : c.1 = a
    · have : Nat.beq c.1 a = true := by simpa [Nat.beq_eq] using e
      rw [hb, this, if_neg h, if_pos e]
      rfl
    · have : Nat.beq c.1 a = false := by
        rw [Bool.eq_false_iff]
        simpa [Nat.beq_eq] using e
      simp [h, hb, e, this]

theorem Memory.store_cons (c : Host.Cell) (rest : Memory) (a : Nat) (v : Byte) :
    Memory.store (c :: rest) a v =
      if c.1 < a then c :: Memory.store rest a v else Memory.cons a v (Memory.dropThrough a (c :: rest)) := by
  simp only [Memory.store]
  by_cases h : c.1 < a
  · have hb : Nat.blt c.1 a = true := by simpa [Nat.blt, Nat.ble_eq] using h
    simp [h, hb]
  · have hb : Nat.blt c.1 a = false := by
      rw [Bool.eq_false_iff]
      simpa [Nat.blt, Nat.ble_eq] using h
    simp [h, hb]

theorem Memory.dropThrough_cons (a : Nat) (c : Host.Cell) (rest : Memory) :
    Memory.dropThrough a (c :: rest) = if c.1 ≤ a then Memory.dropThrough a rest else c :: rest := by
  simp only [Memory.dropThrough]
  by_cases h : c.1 ≤ a
  · have : Nat.ble c.1 a = true := by simpa [Nat.ble_eq] using h
    simp [h, this]
  · have : Nat.ble c.1 a = false := by
      rw [Bool.eq_false_iff]
      simpa [Nat.ble_eq] using h
    simp [h, this]

theorem Memory.cons_eq (a : Nat) (v : Byte) (rest : Memory) :
    Memory.cons a v rest = if v = unlistedByte then rest else (a, v) :: rest := by
  unfold Memory.cons
  by_cases h : v = unlistedByte
  · subst h
    simp [unlistedByte]
  · have : Nat.beq v.toNat unlistedByte.toNat = false := by
      rw [Bool.eq_false_iff]
      intro hb
      exact h (BitVec.eq_of_toNat_eq (Nat.eq_of_beq_eq_true hb))
    simp [h, this]

/-- Dropping the cells up to `a` leaves every later address as it was and no cell at an earlier one. -/
theorem Memory.lookup_dropThrough (m : Memory) (a b : Nat) :
    (Memory.dropThrough a m).lookup b = if a < b then m.lookup b else unlistedByte := by
  induction m with
  | nil => simp [Memory.dropThrough, Memory.lookup_nil]
  | cons c rest ih =>
    rw [Memory.dropThrough_cons, Memory.lookup_cons]
    split
    · rw [ih]
      split
      · rw [if_pos (by omega)]
      · rfl
    · rw [Memory.lookup_cons]
      split
      · rw [if_pos (by omega)]
      · split
        · rw [if_pos (by omega)]
        · simp

theorem Memory.lookup_consCell (rest : Memory) (a b : Nat) (v : Byte) (h : ∀ x ≤ a, rest.lookup x = unlistedByte) :
    (Memory.cons a v rest).lookup b = if b = a then v else if a < b then rest.lookup b else unlistedByte := by
  rw [Memory.cons_eq]
  split
  · next hv =>
    subst hv
    split
    · exact h b (by omega)
    · split
      · rfl
      · exact h b (by omega)
  · rw [Memory.lookup_cons]
    dsimp only
    by_cases hb : b = a
    · simp [hb]
    · by_cases hl : a < b
      · simp [hb, hl]
      · simp [hb, hl, Ne.symm hb]

/-- A store changes the byte at its own address and no other, whatever list of cells it is given. -/
theorem Memory.lookup_store (m : Memory) (a b : Nat) (v : Byte) :
    (m.store a v).lookup b = if b = a then v else m.lookup b := by
  induction m with
  | nil =>
    show (Memory.cons a v []).lookup b = _
    rw [Memory.lookup_consCell [] a b v (fun _ _ => rfl)]
    simp [Memory.lookup_nil]
  | cons c rest ih =>
    rw [Memory.store_cons]
    split
    · next hlt =>
      rw [Memory.lookup_cons, Memory.lookup_cons, ih]
      by_cases hb : b = a
      · subst hb
        simp [hlt]
      · simp [hb]
    · next hge =>
      rw [Memory.lookup_consCell _ a b v (by
        intro x hx
        rw [Memory.lookup_dropThrough, if_neg (by omega)])]
      by_cases hb : b = a
      · simp [hb]
      · rw [if_neg hb, if_neg hb, Memory.lookup_dropThrough]
        by_cases hl : a < b
        · simp [hl]
        · rw [if_neg hl, Memory.lookup_cons, if_neg (by omega), if_neg (by omega)]

/-- Read after write (R10): the byte written at its own address, the old byte everywhere else. -/
@[simp] theorem Memory.read_write (m : Memory) (k k' v : Byte) :
    (m.write k v).read k' = if k' = k then v else m.read k' := by
  unfold Memory.read Memory.write
  rw [Memory.lookup_store]
  simp only [BitVec.toNat_inj]

theorem Memory.read_nil (k : Byte) : Memory.read [] k = unlistedByte := rfl

/-- What a swap leaves at each address (R10). -/
theorem Memory.read_swap (m : Memory) (a b k : Byte) :
    (m.swap a b).read k = if k = b then m.read a else if k = a then m.read b else m.read k := by
  unfold Memory.swap
  simp only [Memory.read_write]

/-- "When `a = b` it leaves `S` unchanged" (R10), entry by entry. -/
theorem Memory.read_swap_self (m : Memory) (a k : Byte) : (m.swap a a).read k = m.read k := by
  rw [Memory.read_swap]
  split <;> simp_all

/-- A swap keeps every value in exactly one entry (R26). -/
theorem Memory.isPermutation_swap {m : Memory} (h : m.isPermutation) (a b : Byte) : (m.swap a b).isPermutation := by
  intro v
  obtain ⟨k, hk, unique⟩ := h v
  by_cases hb : k = b
  · subst hb
    refine ⟨a, ?_, fun k' hk' => ?_⟩
    · rw [Memory.read_swap, if_pos rfl]
      by_cases hab : a = k
      · rw [if_pos hab, hab, hk]
      · rw [if_neg hab, hk]
    · rw [Memory.read_swap] at hk'
      by_cases h1 : k' = k
      · rw [if_pos h1] at hk'
        rw [h1, ← unique a hk']
      · rw [if_neg h1] at hk'
        by_cases h2 : k' = a
        · exact h2
        · rw [if_neg h2] at hk'
          exact absurd (unique k' hk') h1
  · by_cases ha : k = a
    · subst ha
      refine ⟨b, ?_, fun k' hk' => ?_⟩
      · rw [Memory.read_swap, if_pos rfl, hk]
      · rw [Memory.read_swap] at hk'
        by_cases h1 : k' = b
        · exact h1
        · rw [if_neg h1] at hk'
          by_cases h2 : k' = k
          · rw [if_pos h2] at hk'
            exact absurd (unique b hk').symm hb
          · rw [if_neg h2] at hk'
            exact absurd (unique k' hk') h2
    · refine ⟨k, ?_, fun k' hk' => ?_⟩
      · rw [Memory.read_swap, if_neg hb, if_neg ha, hk]
      · rw [Memory.read_swap] at hk'
        by_cases h1 : k' = b
        · rw [if_pos h1] at hk'
          exact absurd (unique a hk').symm ha
        · rw [if_neg h1] at hk'
          by_cases h2 : k' = a
          · rw [if_pos h2] at hk'
            exact absurd (unique b hk').symm hb
          · rw [if_neg h2] at hk'
            exact unique k' hk'

/-! ### The canonical form -/

theorem Memory.wfFrom_cons (lo : Nat) (c : Host.Cell) (rest : Memory) :
    Memory.wfFrom lo (c :: rest) = true ↔
      lo ≤ c.1 ∧ c.1 < 256 ∧ c.2 ≠ unlistedByte ∧ Memory.wfFrom (c.1 + 1) rest = true := by
  simp only [Memory.wfFrom, Bool.and_eq_true, decide_eq_true_eq, and_assoc]
  exact Iff.rfl

theorem Memory.wfFrom_mono {lo lo' : Nat} {m : Memory} (h : Memory.wfFrom lo m = true) (hl : lo' ≤ lo) :
    Memory.wfFrom lo' m = true := by
  cases m with
  | nil => rfl
  | cons c rest =>
    rw [Memory.wfFrom_cons] at h ⊢
    exact ⟨by omega, h.2⟩

theorem Memory.wfFrom_dropThrough {lo a : Nat} {m : Memory} (h : Memory.wfFrom lo m = true) :
    Memory.wfFrom (a + 1) (Memory.dropThrough a m) = true := by
  induction m generalizing lo with
  | nil => rfl
  | cons c rest ih =>
    rw [Memory.wfFrom_cons] at h
    rw [Memory.dropThrough_cons]
    split
    · exact ih h.2.2.2
    · rw [Memory.wfFrom_cons]
      exact ⟨by omega, h.2⟩

theorem Memory.wfFrom_store {lo a : Nat} {m : Memory} (v : Byte) (h : Memory.wfFrom lo m = true) (hl : lo ≤ a)
    (ha : a < 256) : Memory.wfFrom lo (m.store a v) = true := by
  have cell : ∀ rest : Memory, Memory.wfFrom (a + 1) rest = true → ∀ lo' ≤ a,
      Memory.wfFrom lo' (Memory.cons a v rest) = true := by
    intro rest hr lo' hlo
    rw [Memory.cons_eq]
    split
    · exact Memory.wfFrom_mono hr (by omega)
    · next hv =>
      rw [Memory.wfFrom_cons]
      exact ⟨hlo, ha, hv, hr⟩
  induction m generalizing lo with
  | nil => exact cell [] rfl lo hl
  | cons c rest ih =>
    rw [Memory.store_cons]
    split
    · next hc =>
      rw [Memory.wfFrom_cons] at h ⊢
      exact ⟨h.1, h.2.1, h.2.2.1, ih h.2.2.2 hc⟩
    · exact cell _ (Memory.wfFrom_dropThrough h) lo hl

/-- Every write keeps the canonical form. -/
theorem Memory.wf_write {m : Memory} (h : m.wf = true) (k v : Byte) : (m.write k v).wf = true :=
  Memory.wfFrom_store v h (Nat.zero_le _) k.isLt

/-- Every swap keeps the canonical form. -/
theorem Memory.wf_swap {m : Memory} (h : m.wf = true) (a b : Byte) : (m.swap a b).wf = true :=
  Memory.wf_write (Memory.wf_write h _ _) _ _

/-- The empty list, which reset leaves, is in canonical form. -/
theorem Memory.wf_nil : Memory.wf [] = true := rfl

theorem Memory.lookup_below {lo a : Nat} {m : Memory} (h : Memory.wfFrom lo m = true) (hl : a < lo) :
    m.lookup a = unlistedByte := by
  cases m with
  | nil => rfl
  | cons c rest =>
    rw [Memory.wfFrom_cons] at h
    rw [Memory.lookup_cons, if_neg (by omega), if_neg (by omega)]

theorem Memory.eq_of_lookup {lo : Nat} {m m' : Memory} (h : Memory.wfFrom lo m = true) (h' : Memory.wfFrom lo m' = true)
    (hr : ∀ a < 256, m.lookup a = m'.lookup a) : m = m' := by
  induction m generalizing lo m' with
  | nil =>
    cases m' with
    | nil => rfl
    | cons d rest' =>
      rw [Memory.wfFrom_cons] at h'
      have := hr d.1 h'.2.1
      rw [Memory.lookup_nil, Memory.lookup_cons, if_neg (by omega), if_pos rfl] at this
      exact absurd this.symm h'.2.2.1
  | cons c rest ih =>
    rw [Memory.wfFrom_cons] at h
    cases m' with
    | nil =>
      have := hr c.1 h.2.1
      rw [Memory.lookup_nil, Memory.lookup_cons, if_neg (by omega), if_pos rfl] at this
      exact absurd this h.2.2.1
    | cons d rest' =>
      rw [Memory.wfFrom_cons] at h'
      have hc := hr c.1 h.2.1
      have hd := hr d.1 h'.2.1
      rw [Memory.lookup_cons, Memory.lookup_cons] at hc hd
      have he : c.1 = d.1 := by
        rcases Nat.lt_trichotomy c.1 d.1 with hlt | heq | hgt
        · rw [if_neg (by omega), if_pos rfl, if_neg (by omega), if_neg (by omega)] at hc
          exact absurd hc h.2.2.1
        · exact heq
        · rw [if_neg (by omega), if_neg (by omega), if_neg (by omega), if_pos rfl] at hd
          exact absurd hd.symm h'.2.2.1
      have hv : c.2 = d.2 := by
        rw [if_neg (by omega), if_pos rfl, if_neg (by omega), if_pos he.symm] at hc
        exact hc
      have hrest : rest = rest' := by
        refine ih h.2.2.2 (he ▸ h'.2.2.2) ?_
        intro a ha
        by_cases hle : a ≤ c.1
        · rw [Memory.lookup_below h.2.2.2 (by omega), Memory.lookup_below h'.2.2.2 (by omega)]
        · have := hr a ha
          rw [Memory.lookup_cons, Memory.lookup_cons, if_pos (by omega), if_pos (by omega)] at this
          exact this
      rw [hrest, Prod.ext he hv]

/-- Two arrays in canonical form that read the same are the same data. -/
theorem Memory.eq_of_read {m m' : Memory} (h : m.wf = true) (h' : m'.wf = true)
    (hr : ∀ k : Byte, m.read k = m'.read k) : m = m' := by
  refine Memory.eq_of_lookup h h' fun a ha => ?_
  have := hr (BitVec.ofNat 8 a)
  unfold Memory.read at this
  rwa [BitVec.toNat_ofNat, Nat.mod_eq_of_lt ha] at this

end Sys2Proof.Machine
end

