-- ==== Sys2Proof/Laws/State.lean ====
section
/-! SUPPORT. One lemma per field per named update of the state. -/

namespace Sys2Proof.Machine

@[simp] theorem State.setCipher_cipher (s : State) (c : CipherState) : (s.setCipher c).cipher = c := rfl
@[simp] theorem State.setCipher_staging (s : State) (c : CipherState) : (s.setCipher c).staging = s.staging := rfl
@[simp] theorem State.setCipher_phase (s : State) (c : CipherState) : (s.setCipher c).phase = s.phase := rfl
@[simp] theorem State.setCipher_port (s : State) (c : CipherState) : (s.setCipher c).port = s.port := rfl
@[simp] theorem State.setCipher_responses (s : State) (c : CipherState) : (s.setCipher c).responses = s.responses := rfl

@[simp] theorem State.setStaging_cipher (s : State) (b : Staging) : (s.setStaging b).cipher = s.cipher := rfl
@[simp] theorem State.setStaging_staging (s : State) (b : Staging) : (s.setStaging b).staging = b := rfl
@[simp] theorem State.setStaging_phase (s : State) (b : Staging) : (s.setStaging b).phase = s.phase := rfl
@[simp] theorem State.setStaging_port (s : State) (b : Staging) : (s.setStaging b).port = s.port := rfl
@[simp] theorem State.setStaging_responses (s : State) (b : Staging) : (s.setStaging b).responses = s.responses := rfl

@[simp] theorem State.setPhase_cipher (s : State) (p : Phase) : (s.setPhase p).cipher = s.cipher := rfl
@[simp] theorem State.setPhase_staging (s : State) (p : Phase) : (s.setPhase p).staging = s.staging := rfl
@[simp] theorem State.setPhase_phase (s : State) (p : Phase) : (s.setPhase p).phase = p := rfl
@[simp] theorem State.setPhase_port (s : State) (p : Phase) : (s.setPhase p).port = s.port := rfl
@[simp] theorem State.setPhase_responses (s : State) (p : Phase) : (s.setPhase p).responses = s.responses := rfl

@[simp] theorem State.setPort_cipher (s : State) (es : List HostEvent) : (s.setPort es).cipher = s.cipher := rfl
@[simp] theorem State.setPort_staging (s : State) (es : List HostEvent) : (s.setPort es).staging = s.staging := rfl
@[simp] theorem State.setPort_phase (s : State) (es : List HostEvent) : (s.setPort es).phase = s.phase := rfl
@[simp] theorem State.setPort_port (s : State) (es : List HostEvent) : (s.setPort es).port = es := rfl
@[simp] theorem State.setPort_responses (s : State) (es : List HostEvent) : (s.setPort es).responses = s.responses := rfl

@[simp] theorem State.deliver_cipher (s : State) (r : Word) : (s.deliver r).cipher = s.cipher := rfl
@[simp] theorem State.deliver_staging (s : State) (r : Word) : (s.deliver r).staging = s.staging := rfl
@[simp] theorem State.deliver_phase (s : State) (r : Word) : (s.deliver r).phase = s.phase := rfl
@[simp] theorem State.deliver_port (s : State) (r : Word) : (s.deliver r).port = s.port := rfl
@[simp] theorem State.deliver_responses (s : State) (r : Word) : (s.deliver r).responses = s.responses ++ [r] := rfl

/-- Two states with equal parts are equal. -/
theorem State.eq_of_parts {s t : State} (hc : s.cipher = t.cipher) (hb : s.staging = t.staging)
    (hp : s.phase = t.phase) (hq : s.port = t.port) (hr : s.responses = t.responses) : s = t := by
  cases s
  cases t
  simp_all

end Sys2Proof.Machine
end

