-- ==== Sys2Proof/Laws/Ops.lean ====
section
/-! SUPPORT. One lemma per shared operation that says all it can do: the loop, responding and rejecting, clearing the
key, staging a byte, validating it, and the identity permutation. -/

namespace Sys2Proof.Machine

/-! ### The loop -/

@[simp] theorem forRange_zero {α : Type} (body : Nat → α → α) (a : α) : forRange 0 body a = a := by
  unfold forRange
  rfl

theorem forRange_succ {α : Type} (n : Nat) (body : Nat → α → α) (a : α) :
    forRange (n + 1) body a = body n (forRange n body a) := by
  unfold forRange
  rw [Nat.fold_succ]

/-- What holds before a loop and is kept by every iteration holds after it. -/
theorem forRange_keeps {α : Type} (P : α → Prop) (count : Nat) (body : Nat → α → α) (a : α) (h : P a)
    (keep : ∀ n < count, ∀ x, P x → P (body n x)) : P (forRange count body a) := by
  induction count with
  | zero =>
    rw [forRange_zero]
    exact h
  | succ n ih =>
    rw [forRange_succ]
    exact keep n (by omega) _ (ih fun m hm => keep m (by omega))

@[simp] theorem byteOfNat_toNat {n : Nat} (h : n < 256) : (byteOfNat n).toNat = n := by
  unfold byteOfNat
  rw [BitVec.toNat_ofNat, Nat.mod_eq_of_lt h]

@[simp] theorem byteOfNat_of_toNat (k : Byte) : byteOfNat k.toNat = k := by
  unfold byteOfNat
  simp

/-- A loop that writes one entry per iteration leaves its values below `count` and the old ones above. -/
theorem read_fill (f : Nat → Byte) (m : Memory) (k : Byte) {count : Nat} (h : count ≤ 256) :
    (forRange count (fun n m => m.write (byteOfNat n) (f n)) m).read k =
      if k.toNat < count then f k.toNat else m.read k := by
  induction count with
  | zero => simp
  | succ n ih =>
    rw [forRange_succ, Memory.read_write, ih (by omega)]
    by_cases hk : k = byteOfNat n
    · have : k.toNat = n := by rw [hk, byteOfNat_toNat (by omega)]
      rw [if_pos hk, if_pos (by omega), this]
    · have : k.toNat ≠ n := fun h => hk (by rw [← h, byteOfNat_of_toNat])
      rw [if_neg hk]
      by_cases hl : k.toNat < n
      · rw [if_pos hl, if_pos (by omega)]
      · rw [if_neg hl, if_neg (by omega)]

/-! ### Responses -/

/-- `respond` always goes on, and delivers one word. -/
theorem respond_eq (rc : ResponseCode) (p : Payload) (s : State) :
    respond rc p s = .next (s.deliver (responseWord rc p)) := rfl

/-- `reject` always goes on, and writes nothing but the response. -/
theorem reject_eq (rc : ResponseCode) (s : State) : reject rc s = .next (s.deliver (responseWord rc 0x000#12)) := rfl

/-- A response word is its code times 4096 plus its payload (R42). -/
theorem responseWord_toNat (rc : ResponseCode) (p : Payload) :
    (responseWord rc p).toNat = rc.code.toNat * 4096 + p.toNat := by
  unfold responseWord
  rw [BitVec.toNat_append, ← Nat.shiftLeft_add_eq_or_of_lt p.isLt, Nat.shiftLeft_eq]

/-- `zext_12` keeps the number (R42). -/
theorem zext12_toNat (b : Byte) : (zext12 b).toNat = b.toNat := by
  unfold zext12
  rw [BitVec.toNat_append]
  simp

/-! ### The staging buffer -/

@[simp] theorem clearedStaging_klen (b : Staging) : (clearedStaging b).klen = 0 := rfl

@[simp] theorem clearedStaging_kovf (b : Staging) : (clearedStaging b).kovf = false := rfl

theorem clearedStaging_K (b : Staging) :
    (clearedStaging b).K = forRange Config.entries (fun n K => K.write (byteOfNat n) 0x00#8) b.K := rfl

/-- R50: every entry of `K` is 0 after `clear_key`. -/
@[simp] theorem clearedStaging_read (b : Staging) (k : Byte) : (clearedStaging b).K.read k = 0x00#8 := by
  rw [clearedStaging_K, read_fill (fun _ => 0x00#8) b.K k (show Config.entries ≤ 256 from le_refl 256)]
  exact if_pos k.isLt

theorem clearedStaging_wf {b : Staging} (h : b.K.wf = true) : (clearedStaging b).K.wf = true := by
  rw [clearedStaging_K]
  exact forRange_keeps (fun m : Memory => m.wf = true) _ _ _ h fun _ _ _ hx => Memory.wf_write hx _ _

@[simp] theorem clearKey_cipher (s : State) : (clearKey s).cipher = s.cipher := rfl
@[simp] theorem clearKey_staging (s : State) : (clearKey s).staging = clearedStaging s.staging := rfl
@[simp] theorem clearKey_phase (s : State) : (clearKey s).phase = s.phase := rfl
@[simp] theorem clearKey_port (s : State) : (clearKey s).port = s.port := rfl
@[simp] theorem clearKey_responses (s : State) : (clearKey s).responses = s.responses := rfl

/-- R52 with room in the buffer. -/
theorem pushedStaging_of_room (d : Byte) {b : Staging} (h : b.klen.val < 256) :
    (pushedStaging d b).klen.val = b.klen.val + 1 ∧ (pushedStaging d b).kovf = b.kovf ∧
      (pushedStaging d b).K = b.K.write (byteOfNat b.klen.val) d := by
  unfold pushedStaging
  rw [dif_pos (show b.klen.val < Config.keyMax from h)]
  exact ⟨rfl, rfl, rfl⟩

/-- R52 with a full buffer. -/
theorem pushedStaging_of_full (d : Byte) {b : Staging} (h : b.klen.val = 256) :
    pushedStaging d b = { b with kovf := true } := by
  unfold pushedStaging
  rw [dif_neg (show ¬b.klen.val < Config.keyMax by simp [Config.keyMax, h])]

theorem pushedStaging_wf (d : Byte) {b : Staging} (h : b.K.wf = true) : (pushedStaging d b).K.wf = true := by
  unfold pushedStaging
  split
  · exact Memory.wf_write h _ _
  · exact h

/-- All that `validate` can answer (R53). -/
theorem validate_cases (b : Staging) :
    (b.kovf = true ∧ validate b = (.keyTooLong, 0x100#12)) ∨
    (b.kovf = false ∧ b.klen.val < 5 ∧ validate b = (.keyTooShort, 0x005#12)) ∨
    (b.kovf = false ∧ 5 ≤ b.klen.val ∧ validate b = (.ok, 0x000#12)) := by
  unfold validate
  cases hk : b.kovf
  · by_cases hl : b.klen.val < 5
    · exact .inr (.inl ⟨rfl, hl, by simp [Config.keyMin, hl]⟩)
    · exact .inr (.inr ⟨rfl, by omega, by simp [Config.keyMin, hl]⟩)
  · exact .inl ⟨rfl, by simp⟩

/-! ### The identity permutation -/

/-- R54: after the first loop entry `k` holds `k`, whatever was there. -/
@[simp] theorem read_identityPerm (m : Memory) (k : Byte) : (identityPerm m).read k = k := by
  unfold identityPerm
  rw [read_fill byteOfNat m k (show Config.entries ≤ 256 from le_refl 256), byteOfNat_of_toNat]
  exact if_pos k.isLt

theorem wf_identityPerm {m : Memory} (h : m.wf = true) : (identityPerm m).wf = true := by
  unfold identityPerm
  exact forRange_keeps (fun m : Memory => m.wf = true) _ _ _ h fun _ _ _ hx => Memory.wf_write hx _ _

theorem isPermutation_identityPerm (m : Memory) : (identityPerm m).isPermutation :=
  fun v => ⟨v, read_identityPerm m v, fun k' h => by rwa [read_identityPerm] at h⟩

/-- The rounds of the KSA, one at a time. -/
theorem ksaRounds_zero (K : Memory) (klen : Nat) (c : CipherState) :
    ksaRounds K klen 0 c = { S := identityPerm c.S, i := c.i, j := 0x00#8 } :=
  forRange_zero _ _

theorem ksaRounds_succ (K : Memory) (klen n : Nat) (c : CipherState) :
    ksaRounds K klen (n + 1) c = ksaRound K klen n (ksaRounds K klen n c) :=
  forRange_succ _ _ _

end Sys2Proof.Machine
end

