-- ==== Sys2Proof/Laws/PerInstr.lean ====
section
/-! SUPPORT. The per-instruction family `EncodesLegalWord`: every command's word passes the word check of R44. -/

namespace Sys2Proof.Laws.EncodesLegalWord

/-- The word of the command is legal (spec/30_encoding.md R43, R44). -/
def Statement (i : Instr) : Prop := legalWord (encode i) = true

theorem kclr : Statement .kclr := by
  unfold Statement
  decide

theorem kpush (d : Byte) : Statement (.kpush d) := by
  unfold Statement
  revert d
  decide +kernel

theorem init : Statement .init := by
  unfold Statement
  decide

theorem xor (d : Byte) : Statement (.xor d) := by
  unfold Statement
  revert d
  decide +kernel

theorem stat : Statement .stat := by
  unfold Statement
  decide

end Sys2Proof.Laws.EncodesLegalWord
end

