-- ==== Sys2Proof/Laws/Step.lean ====
section
/-! SUPPORT. Inversion lemmas: all that a command, a command word, a host event and a step can do, said once. -/

namespace Sys2Proof.Machine

/-- All that `INIT` can do (R55). -/
theorem execInit_cases (s : State) :
    (s.staging.kovf = false ∧ 5 ≤ s.staging.klen.val ∧
      execInit s = .next ((clearKey ((s.setCipher (ksa s.staging.K s.staging.klen.val s.cipher)).setPhase
        .scheduled)).deliver 0x0000#16)) ∨
    (s.staging.kovf = true ∧ execInit s = .next ((clearKey (s.setPhase .uninit)).deliver 0x2100#16)) ∨
    (s.staging.kovf = false ∧ s.staging.klen.val < 5 ∧
      execInit s = .next ((clearKey (s.setPhase .uninit)).deliver 0x1005#16)) := by
  unfold execInit
  rcases validate_cases s.staging with ⟨hk, hv⟩ | ⟨hk, hl, hv⟩ | ⟨hk, hl, hv⟩
  · rw [hv]
    exact .inr (.inl ⟨hk, rfl⟩)
  · rw [hv]
    exact .inr (.inr ⟨hk, hl, rfl⟩)
  · rw [hv]
    exact .inl ⟨hk, hl, rfl⟩

/-- All that `XOR` can do (R63). -/
theorem execXor_cases (d : Byte) (s : State) :
    (s.phase = .uninit ∧ execXor d s = .next (s.deliver 0x3000#16)) ∨
    (s.phase ≠ .uninit ∧ execXor d s = .next (((s.setCipher (prga s.cipher).2).setPhase .running).deliver
      (responseWord .ok (zext12 (xorByte d (prga s.cipher).1))))) := by
  unfold execXor
  cases h : s.phase
  · exact .inl ⟨rfl, rfl⟩
  · exact .inr ⟨by simp, rfl⟩
  · exact .inr ⟨by simp, rfl⟩

/-- `KCLR` (R51). -/
theorem execKclr_eq (s : State) : execKclr s = .next ((clearKey s).deliver 0x0000#16) := rfl

/-- `KPUSH d` (R52). -/
theorem execKpush_eq (d : Byte) (s : State) :
    execKpush d s = .next ((s.setStaging (pushedStaging d s.staging)).deliver 0x0000#16) := rfl

/-- `STAT` (R70). -/
theorem execStat_eq (s : State) :
    execStat s = .next (s.deliver (responseWord .ok (statusView s.phase s.staging))) := rfl

/-- A command word is performed as the command it decodes to. -/
theorem perform_of_decode {w : Word} {i : Instr} (h : decode w = .ok i) (s : State) : perform w s = exec i s := by
  unfold perform
  rw [h]

/-- A word that spells no command changes nothing but the responses (R44). -/
theorem perform_of_error {w : Word} {e : DecodeError} (h : decode w = .error e) (s : State) :
    perform w s = .next (s.deliver 0x4000#16) := by
  unfold perform
  rw [h]
  rfl

/-- All that a host event can do. -/
theorem accept_command (w : Word) (s : State) : accept (.command w) s = perform w s := rfl
theorem accept_reset (s : State) : accept .reset s = .next (resetEvent s) := rfl
theorem accept_resetDuring (w : Word) (s : State) : accept (.resetDuring w) s = .next (resetEvent s) := rfl
theorem accept_overlap (a b : Word) (s : State) : accept (.overlap a b) s = .refused .commandInFlight := rfl

@[simp] theorem resetEvent_cipher (s : State) : (resetEvent s).cipher = State.reset.cipher := rfl
@[simp] theorem resetEvent_staging (s : State) : (resetEvent s).staging = State.reset.staging := rfl
@[simp] theorem resetEvent_phase (s : State) : (resetEvent s).phase = .uninit := rfl
@[simp] theorem resetEvent_port (s : State) : (resetEvent s).port = s.port := rfl
@[simp] theorem resetEvent_responses (s : State) : (resetEvent s).responses = s.responses := rfl

/-- A step with nothing on the port waits (log 2). -/
theorem step_of_empty {s : State} (h : s.port = []) : step s = .next s := by
  unfold step
  rw [h]

/-- A step takes the next event off the port. -/
theorem step_of_event {s : State} {e : HostEvent} {rest : List HostEvent} (h : s.port = e :: rest) :
    step s = accept e (s.setPort rest) := by
  unfold step
  rw [h]

/-- One step of a run, on any machine behind the host's interface. -/
theorem run_of_step (M : Host.Core) (n : Nat) {s t : M.State} (h : M.step s = .next t) : M.run (n + 1) s = M.run n t := by
  unfold Host.Core.run
  rw [h]
  cases n <;> rfl

/-- A step of this machine in a run of it. -/
theorem core_run_of_step (n : Nat) {s t : State} (h : step s = .next t) :
    Host.Core.run Sys2Proof.core (n + 1) s = Host.Core.run Sys2Proof.core n t :=
  run_of_step Sys2Proof.core n h

@[simp] theorem performAll_nil (s : State) : performAll [] s = .next s := rfl

theorem performAll_cons (w : Word) (ws : List Word) (s : State) :
    performAll (w :: ws) s = andThen (perform w s) (performAll ws) := rfl

@[simp] theorem andThen_next {σ τ : Type} (s : σ) (f : σ → Host.Outcome τ Fault Refusal) :
    andThen (.next s) f = f s := rfl

/-- A sequence of words is its first part and then its second. -/
theorem performAll_append (ws vs : List Word) (s : State) :
    performAll (ws ++ vs) s = andThen (performAll ws s) (performAll vs) := by
  induction ws generalizing s with
  | nil => rfl
  | cons w ws ih =>
    rw [List.cons_append, performAll_cons, performAll_cons]
    cases perform w s with
    | next t => exact ih t
    | fault r => rfl
    | refused r => rfl

end Sys2Proof.Machine
end

