-- ==== Sys2Proof/Machine/Assembler.lean ====
section
/-! DEFINITION. The assembler's text (spec/30_encoding.md R49): one command or pseudo-instruction per line, as a
list of characters. It is host code; where R49 leaves the spelling open, log 16 says what is read. -/

namespace Sys2Proof.Machine

/-- The pieces of a line. -/
inductive Token where
  | word (cs : List Char)
  | comma
  | lparen
  | rparen
deriving DecidableEq, Repr

/-- What a line assembles to. -/
inductive AsmLine where
  | blank
  | command (i : Instr)
  | pseudo (p : Pseudo)
deriving DecidableEq, Repr

/-- "Text after `;` is a comment" (R49). -/
def dropComment : List Char → List Char
  | [] => []
  | c :: cs => if c = ';' then [] else c :: dropComment cs

/-- End the word being read, if there is one. -/
def closeWord (acc : List Char) (ts : List Token) : List Token :=
  if acc.isEmpty then ts else .word acc.reverse :: ts

/-- Cut a line into its pieces; `acc` is the word being read, reversed. -/
def tokens : List Char → List Char → List Token
  | acc, [] => closeWord acc []
  | acc, c :: cs =>
    if c = ' ' ∨ c = '\t' then closeWord acc (tokens [] cs)
    else if c = ',' then closeWord acc (.comma :: tokens [] cs)
    else if c = '(' then closeWord acc (.lparen :: tokens [] cs)
    else if c = ')' then closeWord acc (.rparen :: tokens [] cs)
    else tokens (c :: acc) cs

/-- The value of a decimal digit. -/
def decimalDigit (c : Char) : Option Nat :=
  if 48 ≤ c.toNat ∧ c.toNat ≤ 57 then some (c.toNat - 48) else none

/-- The value of a hexadecimal digit, in either case (log 16). -/
def hexDigit (c : Char) : Option Nat :=
  if 97 ≤ c.toNat ∧ c.toNat ≤ 102 then some (c.toNat - 87)
  else if 65 ≤ c.toNat ∧ c.toNat ≤ 70 then some (c.toNat - 55)
  else decimalDigit c

/-- A decimal number, from the value of the digits already read. -/
def decimalFrom : Nat → List Char → Option Nat
  | n, [] => some n
  | n, c :: cs => (decimalDigit c).bind fun d => decimalFrom (10 * n + d) cs

/-- A written operand: `0xHH`, or a decimal number (R49); its range is checked by `Written.wf`. -/
def operandValue (cs : List Char) : Option Nat :=
  match cs with
  | ['0', 'x', a, b] => (hexDigit a).bind fun x => (hexDigit b).map fun y => 16 * x + y
  | [] => none
  | c :: rest => decimalFrom 0 (c :: rest)

/-- An operand of a list, which must be a byte. -/
def operandByte (cs : List Char) : Option Byte :=
  (operandValue cs).bind fun n => if n < 256 then some (BitVec.ofNat 8 n) else none

/-- The rest of a list of operands: a comma before each, up to the first other piece. -/
def moreOperands : List Token → Option (List Byte × List Token)
  | .comma :: .word cs :: ts =>
    (operandByte cs).bind fun b => (moreOperands ts).map fun x => (b :: x.1, x.2)
  | .comma :: _ => none
  | ts => some ([], ts)

/-- `k0, …, k(n-1)` with n ≥ 0 (R49), and what follows it. -/
def operandList : List Token → Option (List Byte × List Token)
  | .word cs :: ts => (operandByte cs).bind fun b => (moreOperands ts).map fun x => (b :: x.1, x.2)
  | .comma :: _ => none
  | ts => some ([], ts)

/-- A list of operands that ends the line. -/
def wholeOperandList (ts : List Token) : Option (List Byte) :=
  (operandList ts).bind fun x => if x.2.isEmpty then some x.1 else none

/-- `(k0, …)` and what follows it. -/
def bracketedList : List Token → Option (List Byte × List Token)
  | .lparen :: ts =>
    (operandList ts).bind fun x =>
      match x.2 with
      | .rparen :: rest => some (x.1, rest)
      | _ => none
  | _ => none

/-- A machine command with the pieces after its mnemonic: at most one operand (R49). -/
def commandLine (m : Mnemonic) : List Token → Option AsmLine
  | [] => (Written.toInstr { mnemonic := m, operand := none }).map .command
  | [.word cs] =>
    (operandValue cs).bind fun n => (Written.toInstr { mnemonic := m, operand := some n }).map .command
  | _ => none

/-- `APPLY_STATIC (k0, …) (d0, …)` (R49). -/
def staticLine (ts : List Token) : Option AsmLine :=
  (bracketedList ts).bind fun k =>
    (bracketedList k.2).bind fun d => if d.2.isEmpty then some (.pseudo (.applyStatic k.1 d.1)) else none

/-- A line that begins with the word `cs` (R49). -/
def lineOf (cs : List Char) (ts : List Token) : Option AsmLine :=
  if cs = ['K', 'C', 'L', 'R'] then commandLine .kclr ts
  else if cs = ['K', 'P', 'U', 'S', 'H'] then commandLine .kpush ts
  else if cs = ['I', 'N', 'I', 'T'] then commandLine .init ts
  else if cs = ['X', 'O', 'R'] then commandLine .xor ts
  else if cs = ['S', 'T', 'A', 'T'] then commandLine .stat ts
  else if cs = ['K', 'E', 'Y'] then (wholeOperandList ts).map fun ks => .pseudo (.key ks)
  else if cs = ['I', 'N', 'I', 'T', 'I', 'A', 'L', 'I', 'Z', 'E'] then
    (wholeOperandList ts).map fun ks => .pseudo (.initKey ks)
  else if cs = ['K', 'S'] then if ts.isEmpty then some (.pseudo .ks) else none
  else if cs = ['A', 'P', 'P', 'L', 'Y'] then (wholeOperandList ts).map fun ds => .pseudo (.apply ds)
  else if cs = ['A', 'P', 'P', 'L', 'Y', '_', 'S', 'T', 'A', 'T', 'I', 'C'] then staticLine ts
  else none

/-- Assemble one line (R49); none where it is not one of its forms. -/
def assembleLine (line : List Char) : Option AsmLine :=
  match tokens [] (dropComment line) with
  | [] => some .blank
  | .word cs :: ts => lineOf cs ts
  | _ => none

end Sys2Proof.Machine
end

