-- ==== Sys2Proof/Tests/Slice0.lean ====
section
/-! SUPPORT. The author's own tests. Expected values come from spec/95_test_vectors.md and the rules' examples; the
source of each stands before it. After them, for every statement with premises, a state that meets them. -/

namespace Sys2Proof.Tests

open Sys2Proof Sys2Proof.Machine

/-! ### Small states -/

/-- A check of the next state; a stop fails it. -/
def nextIs (o : Host.Outcome State Fault Refusal) (f : State → Bool) : Bool :=
  match o with
  | .next t => f t
  | .fault _ => false
  | .refused _ => false

/-- Reset, with one command word on the port. -/
def offered (w : Word) : State := State.reset.setPort [.command w]

/-- Reset, with a staged key of `n` bytes `01 02 03 04 05` (the rest zeros), and an overflow or none. -/
def staged (n : Fin 257) (ovf : Bool) : State :=
  State.reset.setStaging { kovf := ovf, K := [(0, 1#8), (1, 2#8), (2, 3#8), (3, 4#8), (4, 5#8)], klen := n }

/-- The three entries of `S` that V-PRGA-1 reads, right after INIT. -/
def keyed (p : Phase) : State :=
  (State.reset.setCipher { i := 0#8, S := [(1, 0x03#8), (3, 0xc9#8), (0xcc, 0xb2#8)], j := 0#8 }).setPhase p

/-! ### Well-formedness: one ill-formed term for each check -/

theorem test_legal_words : [0x1000#16, 0x2000#16, 0x20ff#16, 0x3000#16, 0x4000#16, 0x40ff#16, 0x5000#16].all legalWord
    = true := by decide

-- V-ENC-1, V-ENC-14, V-ENC-16
theorem test_illegal_opcode : [0x0000#16, 0x6000#16, 0xf0ff#16].all illegalOpcode = true := by decide

-- V-ENC-5, V-ENC-6, V-ENC-10
theorem test_reserved_field : [0x1100#16, 0x2100#16, 0x4100#16].all reservedFieldSet = true := by decide

-- V-ENC-3, V-ENC-8, V-ENC-12
theorem test_operand_field : [0x1001#16, 0x3001#16, 0x5001#16].all operandFieldSet = true := by decide

theorem test_no_illegal_word_is_legal : [0x0000#16, 0x6000#16, 0x1100#16, 0x3001#16].any legalWord = false := by decide

theorem test_written_operand_missing : (Written.mk .kpush none).wf = false := by decide

theorem test_written_operand_superfluous : (Written.mk .init (some 0)).wf = false := by decide

theorem test_written_operand_too_large : (Written.mk .xor (some 256)).wf = false := by decide

theorem test_written_operand_largest : (Written.mk .xor (some 255)).wf = true := by decide

/-! ### Decoding, encoding, text -/

-- opcode_table.json, "encoding" of each row
theorem test_decode_words :
    decode 0b0001000000000000#16 = .ok .kclr ∧ decode 0b0010000000000001#16 = .ok (.kpush 0x01#8) ∧
    decode 0b0011000000000000#16 = .ok .init ∧ decode 0b0100000001001000#16 = .ok (.xor 0x48#8) ∧
    decode 0b0101000000000000#16 = .ok .stat := by decide

-- V-ENC-1 to V-ENC-17
theorem test_decode_illegal :
    [0x0000#16, 0x0fff#16, 0x1001#16, 0x10ff#16, 0x1100#16, 0x2100#16, 0x2f55#16, 0x3001#16, 0x3800#16, 0x4100#16,
      0x4f00#16, 0x5001#16, 0x5100#16, 0x6000#16, 0x7abc#16, 0xf0ff#16, 0xffff#16].all
      (fun w => (decode w).toOption.isNone) = true := by decide

-- R49: `KPUSH 0x01` is 0x2001, `XOR 0x48` is 0x4048, `INIT` is 0x3000
theorem test_encode_examples :
    encode (.kpush 0x01#8) = 0x2001#16 ∧ encode (.xor 0x48#8) = 0x4048#16 ∧ encode .init = 0x3000#16 ∧
    encode .kclr = 0x1000#16 ∧ encode .stat = 0x5000#16 := by decide

theorem test_table_word : decodeTableWord 16 0x20ff = some (.kpush 0xff#8) ∧ decodeTableWord 16 0x3001 = none := by decide

-- R32: high byte first
theorem test_byte_link : bytesOfWord 0x2001#16 = [0x20#8, 0x01#8] ∧
    decodeBytes [0x20#8, 0x01#8, 0x30#8] = .ok (.kpush 0x01#8, [0x30#8]) ∧ decodeBytes [0x30#8] = .error .truncated := by
  decide

-- R49
theorem test_assemble_kpush :
    assembleLine ['K', 'P', 'U', 'S', 'H', ' ', '0', 'x', '0', '1', ' ', ';', 'k'] = some (.command (.kpush 0x01#8)) := by
  decide

theorem test_assemble_key :
    assembleLine ['K', 'E', 'Y', ' ', '1', ',', ' ', '2', '5', '5'] = some (.pseudo (.key [1#8, 255#8])) := by decide

theorem test_assemble_out_of_range : assembleLine ['X', 'O', 'R', ' ', '2', '5', '6'] = none := by decide

/-! ### The commands, one step each -/

-- V-KEY-2: KLEN = 3, KCLR answers 0x0000 and leaves an empty buffer
theorem test_kclr : nextIs (execKclr (staged 3 false)) (fun t =>
    t.responses == [0x0000#16] && t.staging == { kovf := false, K := [], klen := 0 }) = true := by decide +kernel

-- V-KEY-1: from reset, KPUSH 0x01 stores K[0] = 01, KLEN = 1; run by a step of the machine
theorem test_kpush_first : nextIs (step (State.reset.withFetchWord 16 0x2001)) (fun t =>
    t.responses == [0x0000#16] && t.staging.K == [(0, 1#8)] && t.staging.klen == 1 && t.port == []) = true := by
  decide

-- V-KEY-4: KLEN = 256, KPUSH 0x00 sets KOVF and leaves K
theorem test_kpush_overflow : nextIs (execKpush 0x00#8 (staged 256 false)) (fun t =>
    t.staging == { (staged 256 false).staging with kovf := true }) = true := by decide

-- V-INIT-2 and V-INIT-5: 0x1005 for four bytes, 0x2100 after an overflow, UNINIT and an empty buffer
theorem test_init_rejects :
    nextIs (execInit (staged 4 false)) (fun t => t.responses == [0x1005#16] && t.staging.klen == 0) = true ∧
    nextIs (execInit (staged 256 true)) (fun t => t.responses == [0x2100#16] && t.phase == .uninit) = true := by decide

-- V-INIT-3, V-KSA-1: key 01 02 03 04 05
theorem test_init_ksa : nextIs (execInit (staged 5 false)) (fun t =>
    [t.cipher.S.read 0x03#8, t.cipher.S.read 0x0f#8, t.cipher.S.read 0x29#8, t.cipher.S.read 0xff#8] ==
      [0xc9#8, 0x90#8, 0x00#8, 0x58#8]) = true := by decide +kernel

-- V-XOR-3 and V-PRGA-1: keystream byte 0 is b2, so XOR 0xff answers 0x004d; i = 1, j = 3, S[1] = c9, S[3] = 03
theorem test_xor_first : nextIs (execXor 0xff#8 (keyed .scheduled)) (fun t =>
    t.responses == [0x004d#16] && t.phase == .running &&
      t.cipher == { i := 1#8, S := [(1, 0xc9#8), (3, 0x03#8), (0xcc, 0xb2#8)], j := 3#8 }) = true := by decide +kernel

-- V-XOR-5: from reset, XOR 0x55 is NOT_READY and writes nothing
theorem test_xor_not_ready :
    step (State.reset.withFetchWord 16 0x4055) = .next (State.reset.deliver 0x3000#16) := rfl

-- V-STAT-2, V-STAT-3, V-STAT-4, V-STAT-5
theorem test_stat :
    nextIs (execStat (staged 5 false)) (fun t => t.responses == [0x0005#16]) = true ∧
    nextIs (execStat (keyed .scheduled)) (fun t => t.responses == [0x0400#16]) = true ∧
    nextIs (execStat (keyed .running)) (fun t => t.responses == [0x0800#16]) = true ∧
    nextIs (execStat (staged 256 true)) (fun t => t.responses == [0x0300#16]) = true := by decide

-- V-STAT-6: the largest payload
theorem test_stat_largest :
    nextIs (execStat ((staged 256 true).setPhase .running)) (fun t => t.responses == [0x0b00#16]) = true := by decide

-- V-ENC-10 (R83): ILLEGAL before NOT_READY, nothing changed
theorem test_illegal_before_not_ready :
    step (State.reset.withFetchWord 16 0x4100) = .next (State.reset.deliver 0x4000#16) := rfl

-- R90: a reset that cuts a command leaves the reset state and delivers nothing
theorem test_reset_during : step ((keyed .running).setPort [.resetDuring 0x4000#16]) = .next State.reset := rfl

-- R47, U10: a word written while another is in flight
theorem test_overlap : step (State.reset.setPort [.overlap 0x3000#16 0x4000#16]) = .refused .commandInFlight := rfl

/-! ### Witnesses: states and operands that meet the premises of the statements -/

theorem witness_DecodeReadsExactlyWhatEncodeWrites : (Instr.kpush 0xff#8).wf = true := rfl

-- one word for each way to be illegal, at the edges of the opcode ranges, and the legal words beside them
theorem witness_IllegalWordsAnswerIllegalAndChangeNothing :
    (offered 0x0fff#16).port = .command 0x0fff#16 :: [] ∧ (0x0fff#16 : Word).toNat / 4096 = 0 ∧
    (offered 0x6000#16).port = .command 0x6000#16 :: [] ∧ 6 ≤ (0x6000#16 : Word).toNat / 4096 ∧
    (offered 0x2100#16).port = .command 0x2100#16 :: [] ∧ (0x2100#16 : Word).toNat / 256 % 16 ≠ 0 ∧
    (offered 0x5001#16).port = .command 0x5001#16 :: [] ∧
      ((0x5001#16 : Word).toNat / 4096 = 5 ∧ (0x5001#16 : Word).toNat % 256 ≠ 0) ∧
    (offered 0x5000#16).port = .command 0x5000#16 :: [] ∧ legalWord 0x5000#16 = true := by decide

theorem witness_ByteLinkCarriesTheHighByteFirst : decode 0x40ff#16 = .ok (.xor 0xff#8) := by decide

theorem witness_StepPerformsTheDecodedCommand :
    (offered 0x1000#16).port = .command 0x1000#16 :: [] ∧ decode 0x1000#16 = .ok .kclr ∧ Instr.kclr.wf = true ∧
    (offered 0x1001#16).port = .command 0x1001#16 :: [] ∧ decode 0x1001#16 = .error .operandFieldSet := by decide

-- one state for each response code, the key lengths at their boundaries
theorem witness_EveryCommandGetsOneResponseThatNamesItsCause :
    isInitWord 0x3000#16 ∧ (staged 4 false).staging.klen.val < 5 ∧ (staged 4 false).staging.kovf = false ∧
    (staged 256 true).staging.kovf = true ∧ isXorWord 0x4000#16 ∧ State.reset.phase = .uninit ∧
    legalWord 0x0000#16 = false ∧
    ((staged 4 false).setPort [.command 0x3000#16]).port = .command 0x3000#16 :: [] :=
  ⟨by unfold isInitWord; decide, by decide, rfl, rfl, ⟨0x00#8, by decide⟩, rfl, by decide, rfl⟩

theorem witness_ResetEventRestoresTheSpecifiedResetValues :
    ((keyed .running).setPort [.reset]).port = .reset :: [] ∧
    ((keyed .running).setPort [.resetDuring 0x3000#16]).port = .resetDuring 0x3000#16 :: [] := ⟨rfl, rfl⟩

-- a state on an unfinished run that meets the invariant, and its step
theorem witness_StepKeepsTheInvariant :
    ((staged 5 false).setPort [.command 0x3000#16]).Inv ∧
    ∃ t : State, step ((staged 5 false).setPort [.command 0x3000#16]) = .next t ∧ t.phase = .scheduled :=
  ⟨⟨rfl, by decide, fun h => absurd rfl h, by decide⟩, _, rfl, rfl⟩

theorem witness_OnlyInitAndXorWriteTheCipherState :
    (offered 0x3000#16).port = .command 0x3000#16 :: [] ∧
    (∃ t : State, step ((staged 5 false).setPort [.command 0x3000#16]) = .next t ∧ t.phase ≠ .uninit) ∧
    (¬isInitWord 0x5000#16) ∧ ¬isXorWord 0x5000#16 ∧ ∃ t : State, step (offered 0x5000#16) = .next t :=
  ⟨rfl, ⟨_, rfl, by decide⟩, by unfold isInitWord; decide,
    (fun ⟨d, h⟩ => by rw [show decode 0x5000#16 = .ok .stat by decide] at h; cases h), ⟨_, rfl⟩⟩

theorem witness_PhaseMovesAsTheTableSays :
    (∃ t : State, step ((keyed .running).setPort [.reset]) = .next t) ∧
    isInitWord 0x3000#16 ∧ (staged 5 false).staging.valid ∧ ¬(staged 4 false).staging.valid ∧
    isXorWord 0x40ff#16 ∧ (keyed .scheduled).phase ≠ .uninit ∧ State.reset.phase = .uninit ∧ Instr.kclr ≠ .stat :=
  ⟨⟨_, rfl⟩, by unfold isInitWord; decide, by unfold Staging.valid; decide, by unfold Staging.valid; decide,
    ⟨0xff#8, by decide⟩, by decide, rfl, by decide⟩

theorem witness_CommandsLeaveTheRestUnchanged :
    (∃ t : State, exec .kclr (keyed .running) = .next t) ∧ (∃ t : State, exec (.kpush 1#8) (staged 256 false) = .next t) ∧
    (∃ t : State, exec (.xor 1#8) State.reset = .next t) ∧ (∃ t : State, exec .stat State.reset = .next t) ∧
    (∃ t : State, exec .init (staged 4 false) = .next t) ∧ ¬(staged 4 false).staging.valid :=
  ⟨⟨_, rfl⟩, ⟨_, rfl⟩, ⟨_, rfl⟩, ⟨_, rfl⟩, ⟨_, rfl⟩, by unfold Staging.valid; decide⟩

-- two different states after two different resets: S, i, j and K differ, what has been written does not
theorem witness_NothingUnwrittenIsEverRead :
    State.reset.AgreesWhereWritten ((keyed .uninit).setStaging { kovf := false, K := [(9, 7#8)], klen := 0 }) ∧
    State.reset ≠ (keyed .uninit).setStaging { kovf := false, K := [(9, 7#8)], klen := 0 } :=
  ⟨⟨rfl, rfl, rfl, fun k h => absurd h (Nat.not_lt_zero _), fun h => absurd rfl h, rfl, rfl⟩, by decide⟩

theorem witness_OnlyXorShowsTheCipherState :
    (∀ d : Byte, Instr.stat = .xor d → (keyed .running).phase = .uninit) ∧
    (State.reset.setPhase .running).phase = (keyed .running).phase ∧
    (State.reset.setPhase .running).staging.klen = (keyed .running).staging.klen ∧
    (State.reset.setPhase .running).staging.kovf = (keyed .running).staging.kovf ∧
    (∀ d : Byte, Instr.xor 0x00#8 = .xor d → State.reset.phase = .uninit) :=
  ⟨(fun _ h => by cases h), rfl, rfl, rfl, fun _ _ => rfl⟩

-- the last byte with room and the first without
theorem witness_KpushAppendsAKeyByteOrSetsTheOverflow :
    (staged 255 false).staging.klen.val < 256 ∧ (staged 256 false).staging.klen.val = 256 := by decide

theorem witness_KsaRefinesTheSourceAlgorithm :
    5 ≤ (staged 5 false).staging.klen.val ∧ 5 ≤ (staged 256 false).staging.klen.val ∧ 256 ≤ 256 ∧ 0 < 1 := by decide

theorem witness_KsaLeavesAPermutation : (keyed .running).cipher.S.wf = true := by decide

theorem witness_InitBuildsACipherStateOrRejectsTheKey :
    (staged 5 false).staging.valid ∧ (staged 256 false).staging.valid ∧ (staged 256 true).staging.kovf = true ∧
    (staged 4 false).staging.kovf = false ∧ (staged 4 false).staging.klen.val < 5 :=
  ⟨by unfold Staging.valid; decide, by unfold Staging.valid; decide, rfl, rfl, by decide⟩

-- the same key over two different Cipher States
theorem witness_InitDependsOnTheKeyAlone :
    (staged 5 false).staging.valid ∧ ((staged 5 false).setCipher (keyed .running).cipher).staging.valid ∧
    (staged 5 false).cipher ≠ ((staged 5 false).setCipher (keyed .running).cipher).cipher ∧
    (staged 5 false).cipher.S.wf = true ∧ ((staged 5 false).setCipher (keyed .running).cipher).cipher.S.wf = true :=
  ⟨by unfold Staging.valid; decide, by unfold Staging.valid; decide, by decide, by decide, by decide⟩

-- the key lengths at their boundaries: 0, 4, 5, 256, 257 (W2)
theorem witness_InitializeAnswersByKeyLength :
    validLength (List.replicate 5 (1#8 : Byte)).length ∧ validLength (List.replicate 256 (1#8 : Byte)).length ∧
    ([] : List Byte).length < 5 ∧ (List.replicate 4 (1#8 : Byte)).length < 5 ∧
    256 < (List.replicate 257 (1#8 : Byte)).length := by
  simp only [validLength, List.length_replicate, List.length_nil]
  omega

theorem witness_ApplyStaticStopsOnAKeyError :
    (List.replicate 4 (1#8 : Byte)).length < 5 ∧ 256 < (List.replicate 257 (1#8 : Byte)).length ∧
    validLength (List.replicate 5 (1#8 : Byte)).length := by
  simp only [validLength, List.length_replicate]
  omega

theorem witness_EmptyBufferIsANoOp :
    (List.replicate 4 (1#8 : Byte)).length < 5 ∧ 256 < (List.replicate 257 (1#8 : Byte)).length ∧
    validLength (List.replicate 256 (1#8 : Byte)).length := by
  simp only [validLength, List.length_replicate]
  omega

theorem witness_XorResponsesAreTheSourceKeystream : validLength [1#8, 2#8, 3#8, 4#8, 5#8].length := by
  simp [validLength]

theorem witness_KeyedStateIsDeterminedByKeyAndCount : validLength [1#8, 2#8, 3#8, 4#8, 5#8].length := by
  simp [validLength]

theorem witness_ApplyStaticTwiceIsTheIdentity : validLength [1#8, 2#8, 3#8, 4#8, 5#8].length := by
  simp [validLength]

-- the identity permutation with both cursors at 0 matches the reference before any call
theorem witness_PrgaRefinesNextByte :
    CipherState.Matches { i := 0#8, S := identityPerm [], j := 0#8 } { perm := fun n => n, i := 0, j := 0 } :=
  ⟨fun k => congrArg BitVec.toNat (read_identityPerm [] k), rfl, rfl⟩

theorem witness_PrgaAlwaysAdvances : (identityPerm []).isPermutation ∧ (identityPerm []).wf = true :=
  ⟨isPermutation_identityPerm [], wf_identityPerm rfl⟩

theorem witness_XorAppliesOneKeystreamByte : State.reset.phase = .uninit ∧ (keyed .running).phase ≠ .uninit := by decide

-- the premise, and each way the data byte and the keystream byte can meet: here the keystream byte is b2
theorem witness_XorWithTheKeystreamByteCorners :
    (keyed .scheduled).phase ≠ .uninit ∧ (prga (keyed .scheduled).cipher).1 = 0xb2#8 ∧
    (prga { i := 0#8, S := [], j := 0#8 }).1 = 0x00#8 := by decide +kernel

theorem witness_ApplyNeverFailsOnACipherState : (keyed .scheduled).phase ≠ .uninit := by decide

theorem witness_ChunkingDoesNotChangeTheStream : (keyed .running).phase ≠ .uninit ∧
    ∀ w ∈ [0x1000#16, 0x2099#16, 0x5000#16, 0x0000#16], ¬isInitWord w ∧ ¬isXorWord w := by
  refine ⟨by decide, fun w hw => ?_⟩
  simp only [List.mem_cons, List.not_mem_nil, or_false] at hw
  rcases hw with h | h | h | h <;> subst h
  · rw [isInitWord, isXorWord, show decode 0x1000#16 = .ok .kclr by decide]
    simp
  · rw [isInitWord, isXorWord, show decode 0x2099#16 = .ok (.kpush 0x99#8) by decide]
    simp
  · rw [isInitWord, isXorWord, show decode 0x5000#16 = .ok .stat by decide]
    simp
  · rw [isInitWord, isXorWord, show decode 0x0000#16 = .error .illegalOpcode by decide]
    simp

theorem witness_NoKeystreamWithoutInit : State.reset.phase = .uninit ∧
    (∀ w ∈ [0x4055#16], ¬isInitWord w) ∧ isXorWord 0x4055#16 := by
  refine ⟨rfl, fun w hw => ?_, 0x55#8, by decide⟩
  rw [List.mem_singleton] at hw
  subst hw
  unfold isInitWord
  decide

theorem witness_RepetitionOfCommands :
    (staged 5 false).staging.K.wf = true ∧ (keyed .running).phase ≠ .uninit := by decide

theorem witness_CoresShareNoState :
    (∃ q : Platform, platformStep 0 [offered 0x5000#16, keyed .running] = .next q) ∧ (0 : Nat) ≠ 1 ∧
    ([offered 0x5000#16, keyed .running] : Platform)[0]? = some (offered 0x5000#16) ∧
    ([offered 0x5000#16, keyed .running] : Platform)[1]? = some (keyed .running) ∧
    (∃ t : State, step (offered 0x5000#16) = .next t) ∧ ∃ t : State, step (keyed .running) = .next t :=
  ⟨⟨_, rfl⟩, by decide, rfl, rfl, ⟨_, rfl⟩, ⟨_, rfl⟩⟩

end Sys2Proof.Tests
end

/-! PROOFS. What a command word does to `PHASE` and to the Cipher State (spec/10_state.md R20, R24): a forward rule for
each outcome of `INIT` and `XOR`, one rule for every other word, and the two obligations assembled from them. -/

namespace Sys2Proof.Machine

/-! ### The outcomes of `INIT` and `XOR`, each from its cause -/

/-- `INIT` with a valid key (R55). -/
theorem execInit_of_valid {s : State} (h : s.staging.valid) :
    execInit s = .next ((clearKey ((s.setCipher (ksa s.staging.K s.staging.klen.val s.cipher)).setPhase
      .scheduled)).deliver 0x0000#16) := by
  obtain ⟨hkovf, hklen⟩ := h
  rcases execInit_cases s with ⟨-, -, he⟩ | ⟨ho, -⟩ | ⟨-, hl, -⟩
  · exact he
  · simp [ho] at hkovf
  · omega

/-- `INIT` with any other key answers some error and writes no Cipher State (R55). -/
theorem execInit_of_not_valid {s : State} (h : ¬s.staging.valid) :
    ∃ r : Word, execInit s = .next ((clearKey (s.setPhase .uninit)).deliver r) := by
  rcases execInit_cases s with ⟨ho, hl, -⟩ | ⟨-, he⟩ | ⟨-, -, he⟩
  · exact absurd ⟨ho, hl⟩ h
  · exact ⟨_, he⟩
  · exact ⟨_, he⟩

/-- `INIT` always goes on. -/
theorem execInit_next (s : State) : ∃ t : State, execInit s = .next t := by
  by_cases h : s.staging.valid
  · exact ⟨_, execInit_of_valid h⟩
  · obtain ⟨r, he⟩ := execInit_of_not_valid h
    exact ⟨_, he⟩

/-- `XOR` where no Cipher State exists (R63). -/
theorem execXor_of_uninit (d : Byte) {s : State} (h : s.phase = .uninit) :
    execXor d s = .next (s.deliver 0x3000#16) := by
  rcases execXor_cases d s with ⟨-, he⟩ | ⟨hp, -⟩
  · exact he
  · exact absurd h hp

/-- `XOR` on a Cipher State (R63). -/
theorem execXor_of_ready (d : Byte) {s : State} (h : s.phase ≠ .uninit) :
    execXor d s = .next (((s.setCipher (prga s.cipher).2).setPhase .running).deliver
      (responseWord .ok (zext12 (xorByte d (prga s.cipher).1)))) := by
  rcases execXor_cases d s with ⟨hp, -⟩ | ⟨-, he⟩
  · exact absurd hp h
  · exact he

/-! ### One command word -/

/-- A step with a command word next on the port performs that word. -/
theorem step_of_command {s : State} {w : Word} {rest : List HostEvent} (h : s.port = .command w :: rest) :
    step s = perform w (s.setPort rest) := by
  rw [step_of_event h, accept_command]

theorem perform_of_isInitWord {w : Word} (h : isInitWord w) (s : State) : perform w s = execInit s :=
  perform_of_decode h s

theorem perform_of_isXorWord {w : Word} (h : isXorWord w) (s : State) : ∃ d : Byte, perform w s = execXor d s := by
  obtain ⟨d, hd⟩ := h
  exact ⟨d, perform_of_decode hd s⟩

section
variable {w : Word} {s t : State} (h : perform w s = .next t)
include h

/-- A valid `INIT` makes the core `SCHEDULED`. -/
theorem phase_of_accepted_init (hw : isInitWord w) (hv : s.staging.valid) : t.phase = .scheduled := by
  rw [perform_of_isInitWord hw, execInit_of_valid hv] at h
  cases h
  simp

/-- A failed `INIT` makes the core `UNINIT` and leaves `S`, `i` and `j`. -/
theorem phase_cipher_of_rejected_init (hw : isInitWord w) (hv : ¬s.staging.valid) :
    t.phase = .uninit ∧ t.cipher = s.cipher := by
  obtain ⟨r, he⟩ := execInit_of_not_valid hv
  rw [perform_of_isInitWord hw, he] at h
  cases h
  simp

/-- An accepted `XOR` makes the core `RUNNING`. -/
theorem phase_of_accepted_xor (hw : isXorWord w) (hp : s.phase ≠ .uninit) : t.phase = .running := by
  obtain ⟨d, hd⟩ := perform_of_isXorWord hw s
  rw [hd, execXor_of_ready d hp] at h
  cases h
  simp

/-- A rejected `XOR` leaves the core `UNINIT`, with its `S`, `i` and `j`. -/
theorem phase_cipher_of_rejected_xor (hw : isXorWord w) (hp : s.phase = .uninit) :
    t.phase = .uninit ∧ t.cipher = s.cipher := by
  obtain ⟨d, hd⟩ := perform_of_isXorWord hw s
  rw [hd, execXor_of_uninit d hp] at h
  cases h
  exact ⟨hp, rfl⟩

/-- A word that is neither `INIT` nor `XOR`, legal or not, leaves `PHASE`, `S`, `i` and `j`. -/
theorem phase_cipher_of_other_word (hi : ¬isInitWord w) (hx : ¬isXorWord w) :
    t.phase = s.phase ∧ t.cipher = s.cipher := by
  cases hd : decode w with
  | error e =>
    rw [perform_of_error hd] at h
    cases h
    simp
  | ok i =>
    rw [perform_of_decode hd] at h
    cases i with
    | kclr =>
      cases (execKclr_eq s).symm.trans h
      simp
    | kpush d =>
      cases (execKpush_eq d s).symm.trans h
      simp
    | init => exact absurd hd hi
    | xor d => exact absurd ⟨d, hd⟩ hx
    | stat =>
      cases (execStat_eq s).symm.trans h
      simp

/-- R24, first half: where a Cipher State appears, a valid `INIT` was performed. -/
theorem accepted_init_of_leaves_uninit (hs : s.phase = .uninit) (ht : t.phase ≠ .uninit) :
    isInitWord w ∧ s.staging.valid := by
  by_contra hn
  apply ht
  by_cases hi : isInitWord w
  · exact (phase_cipher_of_rejected_init h hi fun hv => hn ⟨hi, hv⟩).1
  · by_cases hx : isXorWord w
    · exact (phase_cipher_of_rejected_xor h hx hs).1
    · exact (phase_cipher_of_other_word h hi hx).1.trans hs

/-- R24, second half: `S`, `i` and `j` stay unless a valid `INIT` or an accepted `XOR` was performed. -/
theorem cipher_kept_unless_accepted (hi : ¬(isInitWord w ∧ s.staging.valid))
    (hx : ¬(isXorWord w ∧ s.phase ≠ .uninit)) : t.cipher = s.cipher := by
  by_cases hwi : isInitWord w
  · exact (phase_cipher_of_rejected_init h hwi fun hv => hi ⟨hwi, hv⟩).2
  · by_cases hwx : isXorWord w
    · exact (phase_cipher_of_rejected_xor h hwx (not_not.mp fun hp => hx ⟨hwx, hp⟩)).2
    · exact (phase_cipher_of_other_word h hwi hwx).2

end

/-! ### Resets, the encoding of `PHASE`, and `SCHEDULED` against `RUNNING` -/

/-- Both forms of reset make the core `UNINIT` (R29, R90). -/
theorem phase_of_reset {s t : State} {e : HostEvent} (he : e = .reset ∨ ∃ w : Word, e = .resetDuring w)
    (h : accept e s = .next t) : t.phase = .uninit := by
  obtain rfl | ⟨w, rfl⟩ := he
  · cases (accept_reset s).symm.trans h
    simp
  · cases (accept_resetDuring w s).symm.trans h
    simp

theorem phase_code_toNat (p : Phase) : p.code.toNat = phaseNumber p := by
  cases p <;> rfl

/-- `INIT` does not look at `PHASE`, and overwrites it. -/
theorem execInit_setPhase (s : State) (p : Phase) : execInit (s.setPhase p) = execInit s := rfl

/-- R20: a command that is not `STAT` answers the same in `SCHEDULED` and in `RUNNING`, and leaves the same core, but
for a `PHASE` that it did not write. -/
theorem exec_scheduled_running (i : Instr) (s : State) (hi : i ≠ .stat) :
    ∃ t u : State, exec i (s.setPhase .scheduled) = .next t ∧ exec i (s.setPhase .running) = .next u ∧
      u.cipher = t.cipher ∧ u.staging = t.staging ∧ u.port = t.port ∧ u.responses = t.responses ∧
      (u.phase = t.phase ∨ (t.phase = .scheduled ∧ u.phase = .running)) := by
  cases i with
  | kclr => exact ⟨_, _, execKclr_eq _, execKclr_eq _, by simp⟩
  | kpush d => exact ⟨_, _, execKpush_eq d _, execKpush_eq d _, by simp⟩
  | init =>
    have same : execInit (s.setPhase .running) = execInit (s.setPhase .scheduled) := by
      rw [execInit_setPhase, execInit_setPhase]
    obtain ⟨t, ht⟩ := execInit_next (s.setPhase .scheduled)
    exact ⟨t, t, ht, same.trans ht, by simp⟩
  | xor d =>
    exact ⟨_, _, execXor_of_ready d (s := s.setPhase .scheduled) (by simp),
      execXor_of_ready d (s := s.setPhase .running) (by simp), by simp⟩
  | stat => exact absurd rfl hi

/-! ### The obligations -/

/-- Settles O15: the step performs the command word, and the two halves of R24 are read off what a word can do. -/
theorem onlyInitAndXorWriteTheCipherState : Obligations.OnlyInitAndXorWriteTheCipherState := by
  intro s t w rest hport hstep
  rw [step_of_command hport] at hstep
  exact ⟨accepted_init_of_leaves_uninit (s := s.setPort rest) hstep,
    cipher_kept_unless_accepted (s := s.setPort rest) hstep⟩

/-- Settles O16: R20's encoding, its transition table row by row, and `SCHEDULED` against `RUNNING`. -/
theorem phaseMovesAsTheTableSays : Obligations.PhaseMovesAsTheTableSays := by
  refine ⟨phase_code_toNat, fun s t e rest hport hstep => ⟨fun he => ?_, ?_⟩, exec_scheduled_running⟩
  · exact phase_of_reset he ((step_of_event hport).symm.trans hstep)
  · rintro w rfl
    rw [step_of_command hport] at hstep
    exact ⟨phase_of_accepted_init (s := s.setPort rest) hstep,
      fun hi hv => (phase_cipher_of_rejected_init hstep hi hv).1,
      phase_of_accepted_xor (s := s.setPort rest) hstep,
      fun hx hp => (phase_cipher_of_rejected_xor hstep hx hp).1,
      fun hi hx => (phase_cipher_of_other_word hstep hi hx).1⟩

end Sys2Proof.Machine

/-! PROOFS. Which words decode to which command, as arithmetic on the word's number (spec/30_encoding.md R40, R41, R43,
R44), how many there are, and the one response each command word gets (R42, spec/60_exceptions.md R80). -/

namespace Sys2Proof

/-! ### The decoder, by the word's number -/

theorem opField_toNat (w : Word) : (opField w).toNat = w.toNat / 4096 := by
  have := w.isLt
  unfold opField
  rw [BitVec.extractLsb'_toNat, Nat.shiftRight_eq_div_pow]
  omega

theorem rsvField_toNat (w : Word) : (rsvField w).toNat = w.toNat / 256 % 16 := by
  unfold rsvField
  rw [BitVec.extractLsb'_toNat, Nat.shiftRight_eq_div_pow]

theorem dataField_toNat (w : Word) : (dataField w).toNat = w.toNat % 256 := by
  unfold dataField
  rw [BitVec.extractLsb'_toNat, Nat.shiftRight_zero]

/-- A command without an operand is read only where `D` is 0x00, so that `D` is its operand field (R40). -/
theorem fields_of_withoutOperand {op : Nibble} {d : Byte} {i j : Instr} (h : withoutOperand d i = .ok j)
    (hop : op = opcodeOf i) (hi : operandOf i = 0x00#8) : op = opcodeOf j ∧ d = operandOf j := by
  unfold withoutOperand at h
  split at h
  case isTrue hd =>
    cases h
    exact ⟨hop, hd.trans hi.symm⟩
  case isFalse => cases h

/-- The opcode map of R43 reads a command exactly from that command's opcode and operand. -/
theorem decodeOpcode_eq_ok_iff (op : Nibble) (d : Byte) (i : Instr) :
    decodeOpcode op d = .ok i ↔ op = opcodeOf i ∧ d = operandOf i := by
  constructor
  · unfold decodeOpcode
    intro h
    split_ifs at h with h1 h2 h3 h4 h5
    · exact fields_of_withoutOperand h h1 rfl
    · cases h
      exact ⟨h2, rfl⟩
    · exact fields_of_withoutOperand h h3 rfl
    · cases h
      exact ⟨h4, rfl⟩
    · exact fields_of_withoutOperand h h5 rfl
  · rintro ⟨rfl, rfl⟩
    cases i <;> rfl

/-- The decoder reads a command exactly where the three fields are that command's (R40, R43). -/
theorem decode_eq_ok_iff_fields (w : Word) (i : Instr) :
    decode w = .ok i ↔ rsvField w = 0x0#4 ∧ opField w = opcodeOf i ∧ dataField w = operandOf i := by
  unfold decode
  by_cases hr : rsvField w = 0x0#4
  · simp [hr, decodeOpcode_eq_ok_iff]
  · simp [hr]

/-- The decoder reads a command exactly from the word numbered `(OP << 12) | D` (R40, R43). -/
theorem decode_eq_ok_iff_toNat (w : Word) (i : Instr) :
    decode w = .ok i ↔ w.toNat = (opcodeOf i).toNat * 4096 + (operandOf i).toNat := by
  have := (operandOf i).isLt
  rw [decode_eq_ok_iff_fields, ← BitVec.toNat_inj, ← BitVec.toNat_inj, ← BitVec.toNat_inj, rsvField_toNat,
    opField_toNat, dataField_toNat, BitVec.toNat_ofNat]
  omega

theorem decode_eq_ok_kpush_iff (w : Word) (d : Byte) : decode w = .ok (.kpush d) ↔ w.toNat = 0x2000 + d.toNat := by
  simp [decode_eq_ok_iff_toNat, opcodeOf, operandOf]

theorem decode_eq_ok_xor_iff (w : Word) (d : Byte) : decode w = .ok (.xor d) ↔ w.toNat = 0x4000 + d.toNat := by
  simp [decode_eq_ok_iff_toNat, opcodeOf, operandOf]

theorem encode_toNat (i : Instr) : (encode i).toNat = (opcodeOf i).toNat * 4096 + (operandOf i).toNat := by
  unfold encode
  rw [BitVec.toNat_append, BitVec.toNat_append, ← Nat.shiftLeft_add_eq_or_of_lt (operandOf i).isLt,
    ← Nat.shiftLeft_add_eq_or_of_lt (0x0#4 : Nibble).isLt]
  simp only [Nat.shiftLeft_eq, BitVec.toNat_ofNat]
  omega

/-- The decoder reads a command exactly from the word the encoder writes. -/
theorem decode_eq_ok_iff_eq_encode (w : Word) (i : Instr) : decode w = .ok i ↔ w = encode i := by
  rw [decode_eq_ok_iff_toNat, ← encode_toNat, BitVec.toNat_inj]

theorem decode_encode (i : Instr) : decode (encode i) = .ok i := (decode_eq_ok_iff_eq_encode _ i).mpr rfl

theorem encode_injective : Function.Injective encode := fun i j h => by
  have hj : decode (encode i) = .ok j := (decode_eq_ok_iff_eq_encode _ j).mpr h
  rw [decode_encode] at hj
  exact Except.ok.inj hj

/-! ### The word check of R44 against the decoder -/

/-- R44 (a), (b), (c) on the word's number. -/
theorem legalWord_eq_false_iff (w : Word) :
    legalWord w = false ↔ (w.toNat / 4096 = 0 ∨ 6 ≤ w.toNat / 4096) ∨ w.toNat / 256 % 16 ≠ 0 ∨
      ((w.toNat / 4096 = 1 ∨ w.toNat / 4096 = 3 ∨ w.toNat / 4096 = 5) ∧ w.toNat % 256 ≠ 0) := by
  simp only [legalWord, illegalOpcode, reservedFieldSet, operandFieldSet, Bool.and_eq_false_iff, Bool.not_eq_false',
    Bool.or_eq_true, Bool.and_eq_true, beq_iff_eq, bne_iff_ne, decide_eq_true_eq, or_assoc]

theorem legalWord_encode (i : Instr) : legalWord (encode i) = true := by
  cases i with
  | kclr => exact Laws.EncodesLegalWord.kclr
  | kpush d => exact Laws.EncodesLegalWord.kpush d
  | init => exact Laws.EncodesLegalWord.init
  | xor d => exact Laws.EncodesLegalWord.xor d
  | stat => exact Laws.EncodesLegalWord.stat

theorem legalWord_of_decode {w : Word} {i : Instr} (h : decode w = .ok i) : legalWord w = true := by
  rw [(decode_eq_ok_iff_eq_encode w i).mp h]
  exact legalWord_encode i

/-- A word that passes the check has one of the five opcodes, and so the number of a command. -/
theorem decode_of_legalWord {w : Word} (h : legalWord w = true) : ∃ i : Instr, decode w = .ok i := by
  rw [← Bool.not_eq_false, legalWord_eq_false_iff] at h
  have hop : w.toNat / 4096 = 1 ∨ w.toNat / 4096 = 2 ∨ w.toNat / 4096 = 3 ∨ w.toNat / 4096 = 4 ∨
      w.toNat / 4096 = 5 := by omega
  suffices ∃ i : Instr, (opcodeOf i).toNat = w.toNat / 4096 ∧ (operandOf i).toNat = w.toNat % 256 by
    obtain ⟨i, hi, hd⟩ := this
    exact ⟨i, (decode_eq_ok_iff_toNat w i).mpr (by omega)⟩
  rcases hop with ho | ho | ho | ho | ho
  · exact ⟨.kclr, ho.symm, show 0 = w.toNat % 256 by omega⟩
  · exact ⟨.kpush (dataField w), ho.symm, dataField_toNat w⟩
  · exact ⟨.init, ho.symm, show 0 = w.toNat % 256 by omega⟩
  · exact ⟨.xor (dataField w), ho.symm, dataField_toNat w⟩
  · exact ⟨.stat, ho.symm, show 0 = w.toNat % 256 by omega⟩

/-- The decoder rejects exactly the words that fail the check of R44. -/
theorem decode_error_iff (w : Word) : (∃ e : DecodeError, decode w = .error e) ↔ legalWord w = false := by
  constructor
  · rintro ⟨e, he⟩
    by_contra hl
    obtain ⟨i, hi⟩ := decode_of_legalWord (eq_true_of_ne_false hl)
    cases he.symm.trans hi
  · intro hl
    cases hd : decode w with
    | error e => exact ⟨e, rfl⟩
    | ok i => simp [legalWord_of_decode hd] at hl

/-! ### The commands, counted -/

/-- All 256 bytes. -/
def allBytes : List Byte := (List.finRange 256).map BitVec.ofFin

theorem mem_allBytes (d : Byte) : d ∈ allBytes := List.mem_map.mpr ⟨d.toFin, List.mem_finRange _, rfl⟩

theorem length_allBytes : allBytes.length = 256 := by simp [allBytes]

theorem nodup_allBytes : allBytes.Nodup :=
  (List.nodup_finRange 256).map fun _ _ h => BitVec.ofFin.inj h

/-- All commands of R43, each with every operand it takes. -/
def allCommands : List Instr := [.kclr, .init, .stat] ++ (allBytes.map .kpush ++ allBytes.map .xor)

theorem mem_allCommands (i : Instr) : i ∈ allCommands := by
  cases i <;> simp [allCommands, mem_allBytes]

theorem length_allCommands : allCommands.length = 515 := by simp [allCommands, length_allBytes]

theorem nodup_allCommands : allCommands.Nodup := by
  have hpush : (allBytes.map Instr.kpush).Nodup := nodup_allBytes.map fun _ _ h => Instr.kpush.inj h
  have hxor : (allBytes.map Instr.xor).Nodup := nodup_allBytes.map fun _ _ h => Instr.xor.inj h
  simp [allCommands, List.nodup_append, hpush, hxor]

/-- The legal words of R43: the word of each command. -/
def legalWords : List Word := allCommands.map encode

theorem mem_legalWords (w : Word) : w ∈ legalWords ↔ ∃ i : Instr, decode w = .ok i := by
  simp only [legalWords, List.mem_map, mem_allCommands, true_and, decode_eq_ok_iff_eq_encode]
  exact exists_congr fun _ => eq_comm

theorem length_legalWords : legalWords.length = 515 := by simp [legalWords, length_allCommands]

theorem nodup_legalWords : legalWords.Nodup := nodup_allCommands.map encode_injective

theorem not_mem_legalWords (w : Word) : w ∉ legalWords ↔ ∃ e : DecodeError, decode w = .error e := by
  rw [mem_legalWords]
  cases decode w <;> simp

/-- All other 16-bit words: 65,536 less the 515. -/
theorem card_compl_legalWords : (legalWords.toFinsetᶜ).card = 65021 := by
  have hword : Fintype.card Word = 65536 := FinEnum.card_eq_fintypeCard.symm.trans (FinEnum.card_bitVec 16)
  rw [Finset.card_compl, List.toFinset_card_of_nodup nodup_legalWords, length_legalWords, hword]

end Sys2Proof

namespace Sys2Proof.Machine

/-! ### The response to a command word -/

/-- The response code and payload of a command word in state `s`, by what the decoder makes of the word: the table of
R80, with the payloads R42 gives `OK`. -/
inductive Answers (s : State) : Except DecodeError Instr → ResponseCode → Payload → Prop
  | cleared : Answers s (.ok .kclr) .ok 0x000#12
  | pushed (d : Byte) : Answers s (.ok (.kpush d)) .ok 0x000#12
  | scheduled (hk : s.staging.kovf = false) (hl : 5 ≤ s.staging.klen.val) : Answers s (.ok .init) .ok 0x000#12
  | keyTooShort (hl : s.staging.klen.val < 5) (hk : s.staging.kovf = false) :
      Answers s (.ok .init) .keyTooShort 0x005#12
  | keyTooLong (hk : s.staging.kovf = true) : Answers s (.ok .init) .keyTooLong 0x100#12
  | notReady (d : Byte) (hp : s.phase = .uninit) : Answers s (.ok (.xor d)) .notReady 0x000#12
  | masked (d : Byte) (hp : s.phase ≠ .uninit) :
      Answers s (.ok (.xor d)) .ok (zext12 (xorByte d (prga s.cipher).1))
  | status : Answers s (.ok .stat) .ok (statusView s.phase s.staging)
  | illegal (e : DecodeError) : Answers s (.error e) .illegal 0x000#12

/-- A command takes nothing more off the port and delivers one response, the one `Answers` gives it. -/
theorem exec_answers (i : Instr) (s : State) :
    ∃ (t : State) (rc : ResponseCode) (p : Payload), exec i s = .next t ∧ t.port = s.port ∧
      t.responses = s.responses ++ [responseWord rc p] ∧ Answers s (.ok i) rc p := by
  cases i with
  | kclr => exact ⟨_, _, _, execKclr_eq s, rfl, rfl, .cleared⟩
  | kpush d => exact ⟨_, _, _, execKpush_eq d s, rfl, rfl, .pushed d⟩
  | init =>
    rcases execInit_cases s with ⟨hk, hl, he⟩ | ⟨hk, he⟩ | ⟨hk, hl, he⟩
    · exact ⟨_, _, _, he, rfl, rfl, .scheduled hk hl⟩
    · exact ⟨_, _, _, he, rfl, rfl, .keyTooLong hk⟩
    · exact ⟨_, _, _, he, rfl, rfl, .keyTooShort hl hk⟩
  | xor d =>
    rcases execXor_cases d s with ⟨hp, he⟩ | ⟨hp, he⟩
    · exact ⟨_, _, _, he, rfl, rfl, .notReady d hp⟩
    · exact ⟨_, _, _, he, rfl, rfl, .masked d hp⟩
  | stat => exact ⟨_, _, _, execStat_eq s, rfl, rfl, .status⟩

/-- The same for any word, legal or not. -/
theorem perform_answers (w : Word) (s : State) :
    ∃ (t : State) (rc : ResponseCode) (p : Payload), perform w s = .next t ∧ t.port = s.port ∧
      t.responses = s.responses ++ [responseWord rc p] ∧ Answers s (decode w) rc p := by
  cases hd : decode w with
  | ok i =>
    rw [perform_of_decode hd]
    exact exec_answers i s
  | error e => exact ⟨_, _, _, perform_of_error hd s, rfl, rfl, .illegal e⟩

/-- The payload an error code comes with (R80); for `OK` the payload depends on the command. -/
def errorPayload : ResponseCode → Payload
  | .ok => 0x000#12
  | .keyTooShort => 0x005#12
  | .keyTooLong => 0x100#12
  | .notReady => 0x000#12
  | .illegal => 0x000#12

section
variable {s : State} {x : Except DecodeError Instr} {rc : ResponseCode} {p : Payload} (h : Answers s x rc p)
include h

theorem Answers.keyTooShort_iff :
    rc = .keyTooShort ↔ x = .ok .init ∧ s.staging.klen.val < 5 ∧ s.staging.kovf = false := by
  constructor
  · rintro rfl
    cases h with
    | keyTooShort hl hk => exact ⟨rfl, hl, hk⟩
  · rintro ⟨rfl, hl, hk⟩
    cases h with
    | scheduled _ hl' => omega
    | keyTooShort => rfl
    | keyTooLong hk' => simp [hk] at hk'

theorem Answers.keyTooLong_iff : rc = .keyTooLong ↔ x = .ok .init ∧ s.staging.kovf = true := by
  constructor
  · rintro rfl
    cases h with
    | keyTooLong hk => exact ⟨rfl, hk⟩
  · rintro ⟨rfl, hk⟩
    cases h with
    | scheduled hk' => simp [hk] at hk'
    | keyTooShort _ hk' => simp [hk] at hk'
    | keyTooLong => rfl

theorem Answers.notReady_iff : rc = .notReady ↔ (∃ d : Byte, x = .ok (.xor d)) ∧ s.phase = .uninit := by
  constructor
  · rintro rfl
    cases h with
    | notReady d hp => exact ⟨⟨d, rfl⟩, hp⟩
  · rintro ⟨⟨d, rfl⟩, hp⟩
    cases h with
    | notReady => rfl
    | masked _ hp' => exact absurd hp hp'

theorem Answers.illegal_iff : rc = .illegal ↔ ∃ e : DecodeError, x = .error e := by
  constructor
  · rintro rfl
    cases h with
    | illegal e => exact ⟨e, rfl⟩
  · rintro ⟨e, rfl⟩
    cases h with
    | illegal => rfl

theorem Answers.payload_of_error (hrc : rc ≠ .ok) : p = errorPayload rc := by
  cases h with
  | keyTooShort | keyTooLong | notReady | illegal => rfl
  | cleared | pushed | scheduled | masked | status => exact absurd rfl hrc

end

/-- The `STATUS` view is the number R21's bit positions give. -/
theorem statusView_toNat (s : State) : (statusView s.phase s.staging).toNat = statusNumber s := by
  have hk := s.staging.klen.isLt
  have hf : (BitVec.ofBool s.staging.kovf).toNat * 512 = if s.staging.kovf = true then 512 else 0 := by
    cases s.staging.kovf <;> rfl
  unfold statusView klenBits statusNumber
  rw [BitVec.toNat_append, BitVec.toNat_append, ← Nat.shiftLeft_add_eq_or_of_lt (BitVec.isLt _),
    ← Nat.shiftLeft_add_eq_or_of_lt (BitVec.isLt _), phase_code_toNat, BitVec.toNat_ofNat, Nat.shiftLeft_eq,
    Nat.shiftLeft_eq, ← hf, Nat.mod_eq_of_lt (by omega)]
  ring

/-- The payload of an `OK` response, command by command (R42). -/
theorem Answers.payload_of_ok {s : State} {x : Except DecodeError Instr} {p : Payload} (h : Answers s x .ok p) :
    (∃ d : Byte, x = .ok (.xor d) ∧ p.toNat = (xorByte d (prga s.cipher).1).toNat) ∨
    (x = .ok .stat ∧ p.toNat = statusNumber s) ∨
    ((x = .ok .kclr ∨ (∃ d : Byte, x = .ok (.kpush d)) ∨ x = .ok .init) ∧ p.toNat = 0) := by
  cases h with
  | cleared => exact .inr (.inr ⟨.inl rfl, rfl⟩)
  | pushed d => exact .inr (.inr ⟨.inr (.inl ⟨d, rfl⟩), rfl⟩)
  | scheduled => exact .inr (.inr ⟨.inr (.inr rfl), rfl⟩)
  | masked d => exact .inl ⟨d, rfl, zext12_toNat _⟩
  | status => exact .inr (.inl ⟨rfl, statusView_toNat s⟩)

theorem ResponseCode.code_toNat_le (rc : ResponseCode) : rc.code.toNat ≤ 4 := by
  cases rc <;> decide

theorem ResponseCode.code_toNat_inj {rc rc' : ResponseCode} : rc.code.toNat = rc'.code.toNat ↔ rc = rc' := by
  cases rc <;> cases rc' <;> decide

theorem responseWord_toNat_div (rc : ResponseCode) (p : Payload) :
    (responseWord rc p).toNat / 4096 = rc.code.toNat := by
  have := p.isLt
  rw [responseWord_toNat]
  omega

theorem responseWord_toNat_mod (rc : ResponseCode) (p : Payload) : (responseWord rc p).toNat % 4096 = p.toNat := by
  have := p.isLt
  rw [responseWord_toNat]
  omega

/-- `RC` of a response word tells its code (R42, R80). -/
theorem responseWord_code_iff (rc rc' : ResponseCode) (p : Payload) :
    (responseWord rc p).toNat / 4096 = rc'.code.toNat ↔ rc = rc' := by
  rw [responseWord_toNat_div, ResponseCode.code_toNat_inj]

/-- The whole response word of an error code (R80). -/
theorem Answers.word_of_error {s : State} {x : Except DecodeError Instr} {rc : ResponseCode} {p : Payload}
    (h : Answers s x rc p) (rc' : ResponseCode) (hne : rc' ≠ .ok)
    (hcode : (responseWord rc p).toNat / 4096 = rc'.code.toNat) :
    responseWord rc p = responseWord rc' (errorPayload rc') := by
  obtain rfl := (responseWord_code_iff rc rc' p).mp hcode
  rw [h.payload_of_error hne]

/-! ### The obligations -/

/-- Settles O2: a command's words are those numbered `(OP << 12) | D`; the legal ones are the words of the 515 commands,
and the illegal ones their complement among the 65,536. -/
theorem legalWordsAreExactlyTheListedOnes : Obligations.LegalWordsAreExactlyTheListedOnes := by
  refine ⟨fun w => decode_eq_ok_iff_eq_encode w .kclr, decode_eq_ok_kpush_iff,
    fun w => decode_eq_ok_iff_eq_encode w .init, decode_eq_ok_xor_iff,
    fun w => decode_eq_ok_iff_eq_encode w .stat, legalWords, legalWords.toFinsetᶜ.toList, nodup_legalWords,
    Finset.nodup_toList _, length_legalWords, ?_, mem_legalWords, fun w => ?_⟩
  · rw [Finset.length_toList, card_compl_legalWords]
  · rw [Finset.mem_toList, Finset.mem_compl, List.mem_toFinset, not_mem_legalWords]

/-- Settles O3: the decoder rejects exactly the words that meet R44 (a), (b) or (c), and a rejected word writes nothing
but its response. -/
theorem illegalWordsAnswerIllegalAndChangeNothing : Obligations.IllegalWordsAnswerIllegalAndChangeNothing := by
  intro w s rest hport
  rw [step_of_command hport, ← legalWord_eq_false_iff]
  refine ⟨fun hillegal => ?_, fun hlegal => decode_of_legalWord (eq_true_of_ne_false hlegal)⟩
  obtain ⟨e, he⟩ := (decode_error_iff w).mpr hillegal
  exact ⟨_, perform_of_error he _, ⟨rfl, rfl, rfl⟩, rfl, rfl⟩

/-- Settles O9: a step answers a command word as `Answers` says, and the causes and payloads are read off that table
code by code. -/
theorem everyCommandGetsOneResponseThatNamesItsCause :
    Obligations.EveryCommandGetsOneResponseThatNamesItsCause := by
  intro s w rest hport
  obtain ⟨t, rc, p, hstep, htport, hresp, h⟩ := perform_answers w (s.setPort rest)
  refine ⟨t, responseWord rc p, (step_of_command hport).trans hstep, htport, hresp, ?_, fun hok => ?_,
    (responseWord_code_iff rc .keyTooShort p).trans h.keyTooShort_iff, h.word_of_error .keyTooShort (by decide),
    (responseWord_code_iff rc .keyTooLong p).trans h.keyTooLong_iff, h.word_of_error .keyTooLong (by decide),
    (responseWord_code_iff rc .notReady p).trans h.notReady_iff, h.word_of_error .notReady (by decide),
    (responseWord_code_iff rc .illegal p).trans (h.illegal_iff.trans (decode_error_iff w)),
    h.word_of_error .illegal (by decide)⟩
  · rw [responseWord_toNat_div]
    exact rc.code_toNat_le
  · obtain rfl := (responseWord_code_iff rc .ok p).mp hok
    rw [responseWord_toNat_mod]
    exact h.payload_of_ok

end Sys2Proof.Machine

/-! PROOFS. The Key Scheduler (spec/40_key_scheduler.md): a round of the KSA on the core's storage against the round of
the source's algorithm (R54), then what `KCLR`, `KPUSH` and `INIT` leave (R51, R52, R55). -/

namespace Sys2Proof.Machine

/-! ### One round of the KSA against the source's round -/

theorem addByte_toNat (a b : Byte) : (addByte a b).toNat = (a.toNat + b.toNat) % 256 := BitVec.toNat_add a b

/-- The key byte of iteration `n`, as a number (R11, R54). -/
theorem keyByte_toNat (b : Staging) (n : Nat) :
    (keyByte b.K b.klen.val n).toNat = stagedKey b (n % b.klen.val) := rfl

/-- A swap of two entries is the source's exchange of them (R10). -/
theorem read_swap_toNat {m : Memory} {p : Nat → Nat} (hm : ∀ k : Byte, (m.read k).toNat = p k.toNat) (a b k : Byte) :
    ((m.swap a b).read k).toNat = Reference.exchange p a.toNat b.toNat k.toNat := by
  rw [Memory.read_swap]
  unfold Reference.exchange
  simp only [BitVec.toNat_inj]
  by_cases ha : k = a
  · by_cases hb : k = b
    · rw [if_pos hb, if_pos ha, hm, ← ha, ← hb]
    · rw [if_neg hb, if_pos ha, if_pos ha, hm]
  · by_cases hb : k = b
    · rw [if_pos hb, if_neg ha, if_pos hb, hm]
    · rw [if_neg hb, if_neg ha, if_neg ha, if_neg hb, hm]

/-- The reference's round, unfolded: the new `index_j`, then the exchange at it (R54). -/
theorem reference_ksaRounds_succ (key : Nat → Nat) (length n : Nat) :
    (Reference.ksaRounds key length (n + 1)).2 =
      ((Reference.ksaRounds key length n).2 + (Reference.ksaRounds key length n).1 n + key (n % length)) % 256 ∧
    (Reference.ksaRounds key length (n + 1)).1 =
      Reference.exchange (Reference.ksaRounds key length n).1 n (Reference.ksaRounds key length (n + 1)).2 :=
  ⟨rfl, rfl⟩

section
variable (b : Staging) {n : Nat} (hn : n < 256) {c : CipherState} {p : Nat → Nat}
  (hS : ∀ k : Byte, (c.S.read k).toNat = p k.toNat)
include hn hS

/-- The cursor `j` of one round: a sum of three bytes modulo 256. -/
theorem ksaRound_j_toNat :
    (ksaRound b.K b.klen.val n c).j.toNat = (c.j.toNat + p n + stagedKey b (n % b.klen.val)) % 256 := by
  show (addByte (addByte c.j (c.S.read (byteOfNat n))) (keyByte b.K b.klen.val n)).toNat = _
  rw [addByte_toNat, addByte_toNat, hS, byteOfNat_toNat hn, keyByte_toNat, Nat.mod_add_mod]

/-- The array after one round: the exchange at `n` and at the new `j`. -/
theorem ksaRound_read_toNat (k : Byte) :
    ((ksaRound b.K b.klen.val n c).S.read k).toNat =
      Reference.exchange p n (ksaRound b.K b.klen.val n c).j.toNat k.toNat := by
  have := read_swap_toNat hS (byteOfNat n) (ksaRound b.K b.klen.val n c).j k
  rwa [byteOfNat_toNat hn] at this

end

/-! ### All rounds -/

/-- R54: after `n` rounds the core's array and cursor `j` are the source's `permutation` and `index_j`, whatever the
Cipher State was before. -/
theorem ksaRounds_refine (b : Staging) (c : CipherState) {n : Nat} (hn : n ≤ 256) :
    (∀ k : Byte, ((ksaRounds b.K b.klen.val n c).S.read k).toNat =
      (Reference.ksaRounds (stagedKey b) b.klen.val n).1 k.toNat) ∧
    (ksaRounds b.K b.klen.val n c).j.toNat = (Reference.ksaRounds (stagedKey b) b.klen.val n).2 := by
  induction n with
  | zero =>
    rw [ksaRounds_zero]
    exact ⟨fun k => congrArg BitVec.toNat (read_identityPerm c.S k), rfl⟩
  | succ n ih =>
    obtain ⟨hS, hj⟩ := ih (by omega)
    obtain ⟨refJ, refPerm⟩ := reference_ksaRounds_succ (stagedKey b) b.klen.val n
    rw [ksaRounds_succ]
    have hj' : (ksaRound b.K b.klen.val n (ksaRounds b.K b.klen.val n c)).j.toNat =
        (Reference.ksaRounds (stagedKey b) b.klen.val (n + 1)).2 := by
      rw [ksaRound_j_toNat b hn hS, hj, refJ]
    refine ⟨fun k => ?_, hj'⟩
    rw [ksaRound_read_toNat b hn hS k, hj', refPerm]

/-- R16: the cursor `i` is left at the number of the last round. -/
theorem ksaRounds_i_toNat (K : Memory) (klen : Nat) (c : CipherState) {n : Nat} (hpos : 0 < n) (hn : n ≤ 256) :
    (ksaRounds K klen n c).i.toNat = n - 1 := by
  obtain ⟨m, rfl⟩ := Nat.exists_eq_succ_of_ne_zero hpos.ne'
  rw [ksaRounds_succ]
  exact byteOfNat_toNat hn

/-- R54: the KSA builds the Cipher State of the source's `initialize`. -/
theorem ksa_matches (b : Staging) (c : CipherState) :
    (ksa b.K b.klen.val c).Matches (Reference.initial (stagedKey b) b.klen.val) :=
  ⟨(ksaRounds_refine b c (le_refl 256)).1, rfl, rfl⟩

/-- R26: every round keeps a permutation in `S`, and the first loop put one there. -/
theorem ksaRounds_isPermutation (K : Memory) (klen n : Nat) (c : CipherState) :
    (ksaRounds K klen n c).S.isPermutation := by
  induction n with
  | zero =>
    rw [ksaRounds_zero]
    exact isPermutation_identityPerm c.S
  | succ n ih =>
    rw [ksaRounds_succ]
    exact Memory.isPermutation_swap ih _ _

theorem ksa_isPermutation (K : Memory) (klen : Nat) (c : CipherState) : (ksa K klen c).S.isPermutation :=
  ksaRounds_isPermutation K klen Config.entries c

/-! ### What `KPUSH` and `INIT` leave -/

/-- R52 with room in the buffer, entry by entry: the byte stands at `KLEN`, and no other entry changes. -/
theorem pushedStaging_read_of_room (d : Byte) {b : Staging} (h : b.klen.val < 256) (k : Byte) :
    (pushedStaging d b).K.read k = if k.toNat = b.klen.val then d else b.K.read k := by
  obtain ⟨-, -, hK⟩ := pushedStaging_of_room d h
  have hk : k = byteOfNat b.klen.val ↔ k.toNat = b.klen.val := by
    rw [← BitVec.toNat_inj, byteOfNat_toNat h]
  rw [hK, Memory.read_write]
  simp only [hk]

/-- R55: both outcomes of `INIT` clear the staged key. -/
theorem execInit_clears_key {s t : State} (h : execInit s = .next t) :
    t.staging = clearedStaging s.staging ∧ t.port = s.port := by
  rcases execInit_cases s with ⟨-, -, he⟩ | ⟨-, he⟩ | ⟨-, -, he⟩ <;>
  · cases he.symm.trans h
    exact ⟨rfl, rfl⟩

/-- `INIT` after an overflow (R53, R55). -/
theorem execInit_of_overflow {s : State} (h : s.staging.kovf = true) :
    execInit s = .next ((clearKey (s.setPhase .uninit)).deliver 0x2100#16) := by
  rcases execInit_cases s with ⟨hk, -⟩ | ⟨-, he⟩ | ⟨hk, -⟩
  · simp [h] at hk
  · exact he
  · simp [h] at hk

/-- `INIT` with fewer than 5 key bytes (R53, R55). -/
theorem execInit_of_short {s : State} (hk : s.staging.kovf = false) (hl : s.staging.klen.val < 5) :
    execInit s = .next ((clearKey (s.setPhase .uninit)).deliver 0x1005#16) := by
  rcases execInit_cases s with ⟨-, hl', -⟩ | ⟨ho, -⟩ | ⟨-, -, he⟩
  · omega
  · simp [hk] at ho
  · exact he

/-! ### The obligations -/

/-- Settles O20: `KCLR` delivers `OK` on the cleared buffer, and writes nothing else. -/
theorem kclrEmptiesTheStagingBuffer : Obligations.KclrEmptiesTheStagingBuffer :=
  ⟨fun w => decode_eq_ok_iff_eq_encode w .kclr, fun s =>
    ⟨_, execKclr_eq s, clearedStaging_read s.staging, rfl, rfl, rfl, rfl, rfl, rfl⟩⟩

/-- Settles O21: `KPUSH` replaces the buffer by the pushed one, which the room in it decides. -/
theorem kpushAppendsAKeyByteOrSetsTheOverflow : Obligations.KpushAppendsAKeyByteOrSetsTheOverflow := by
  refine ⟨decode_eq_ok_kpush_iff, fun d s =>
    ⟨_, execKpush_eq d s, rfl, rfl, rfl, rfl, fun hroom => ?_, fun hfull => ?_⟩⟩
  · obtain ⟨hklen, hkovf, -⟩ := pushedStaging_of_room d hroom
    exact ⟨hklen, hkovf, pushedStaging_read_of_room d hroom⟩
  · simp [pushedStaging_of_full d hfull, hfull]

/-- Settles O22: round by round from the identity permutation; the earlier Cipher State enters nowhere. -/
theorem ksaRefinesTheSourceAlgorithm : Obligations.KsaRefinesTheSourceAlgorithm := by
  intro b c _
  refine ⟨fun n hn => ?_, ksa_matches b c⟩
  obtain ⟨hS, hj⟩ := ksaRounds_refine b c hn
  exact ⟨hS, hj, fun hpos => ksaRounds_i_toNat b.K b.klen.val c hpos hn⟩

/-- Settles O24: both outcomes clear the key, and each cause has its own outcome. -/
theorem initBuildsACipherStateOrRejectsTheKey : Obligations.InitBuildsACipherStateOrRejectsTheKey := by
  refine ⟨fun w => decode_eq_ok_iff_eq_encode w .init, fun s => ?_⟩
  obtain ⟨t, ht⟩ := execInit_next s
  obtain ⟨hstaging, hport⟩ := execInit_clears_key ht
  refine ⟨t, ht, by simp [hstaging], by simp [hstaging], by simp [hstaging], hport, fun hvalid => ?_,
    fun hover => ?_, fun hkovf hshort => ?_⟩
  · cases ht.symm.trans (execInit_of_valid hvalid)
    exact ⟨ksa_matches s.staging s.cipher, ksa_isPermutation _ _ s.cipher, rfl, rfl⟩
  · cases ht.symm.trans (execInit_of_overflow hover)
    exact ⟨rfl, rfl, rfl⟩
  · cases ht.symm.trans (execInit_of_short hkovf hshort)
    exact ⟨rfl, rfl, rfl⟩

end Sys2Proof.Machine

/-! PROOFS. The Keystream Generator (spec/41_keystream_generator.md): one step of the PRGA on the core's storage against
one `next_byte` of the source (R60), first the two cursors, then the array, then the output read. -/

namespace Sys2Proof.Machine

/-- An entry of `S` at the sum of two bytes is the source's entry at their sum modulo 256 (R10). -/
theorem read_addByte_toNat {m : Memory} {p : Nat → Nat} (hm : ∀ k : Byte, (m.read k).toNat = p k.toNat) (a b : Byte) :
    (m.read (addByte a b)).toNat = p ((a.toNat + b.toNat) % 256) := by
  rw [hm, addByte_toNat]

section
variable {c : CipherState} {r : Reference.Cipher} (h : c.Matches r)
include h

/-- The cursor `i` moves on by one. -/
theorem prgaNext_i_toNat : (prgaNext c).i.toNat = (Reference.advance r).i := by
  obtain ⟨-, hi, -⟩ := h
  show (addByte c.i 0x01#8).toNat = (r.i + 1) % 256
  rw [addByte_toNat, hi]
  rfl

/-- The cursor `j` takes the entry at the new `i`, read before the swap. -/
theorem prgaNext_j_toNat : (prgaNext c).j.toNat = (Reference.advance r).j := by
  have newI := prgaNext_i_toNat h
  obtain ⟨hS, -, hj⟩ := h
  show (addByte c.j (c.S.read (prgaNext c).i)).toNat = (r.j + r.perm (Reference.advance r).i) % 256
  rw [addByte_toNat, hj, hS, newI]

/-- The array is swapped at the new cursors. -/
theorem prgaNext_read_toNat (k : Byte) : ((prgaNext c).S.read k).toNat = (Reference.advance r).perm k.toNat := by
  show ((c.S.swap (prgaNext c).i (prgaNext c).j).read k).toNat =
    Reference.exchange r.perm (Reference.advance r).i (Reference.advance r).j k.toNat
  rw [read_swap_toNat h.1, prgaNext_i_toNat h, prgaNext_j_toNat h]

/-- R60: the state after one step of the PRGA is the source's state after one `next_byte`. -/
theorem prgaNext_matches : (prgaNext c).Matches (Reference.advance r) :=
  ⟨prgaNext_read_toNat h, prgaNext_i_toNat h, prgaNext_j_toNat h⟩

/-- R60: matching states give the same output byte; both entries that form `t` are read from the state at hand. -/
theorem prgaOutput_toNat : (prgaOutput c).toNat = Reference.output r := by
  obtain ⟨hS, hi, hj⟩ := h
  unfold prgaOutput Reference.output
  rw [read_addByte_toNat hS, hS, hS, hi, hj]

end

/-! ### The obligation -/

/-- Settles O28: the state after the step matches, and the output is read from that state, after the swap. -/
theorem prgaRefinesNextByte : Obligations.PrgaRefinesNextByte := fun _ _ h =>
  ⟨prgaNext_matches h, prgaOutput_toNat (prgaNext_matches h)⟩

end Sys2Proof.Machine

/-! PROOFS. The Keystream Applicator (spec/42_keystream_applicator.md): `XOR` (R63), what `INITIALIZE key` leaves and
answers by the length of the key (spec/40_key_scheduler.md R53, R56), and `APPLY` and `APPLY_STATIC` on top of it
(R66, R69). -/

namespace Sys2Proof.Machine

/-! ### `XOR` -/

/-- `XOR` always goes on. -/
theorem execXor_next (d : Byte) (s : State) : ∃ t : State, execXor d s = .next t := by
  rcases execXor_cases d s with ⟨-, he⟩ | ⟨-, he⟩ <;> exact ⟨_, he⟩

/-- The response of an accepted `XOR` is the number of its byte: `RC = OK` is 0, and so is `P[11:8]` (R63). -/
theorem responseWord_ok_zext12_toNat (b : Byte) : (responseWord .ok (zext12 b)).toNat = b.toNat := by
  rw [responseWord_toNat, zext12_toNat]
  simp [ResponseCode.code]

/-- Settles O30: `XOR` has the two outcomes that `PHASE` decides, and neither writes the staging buffer. -/
theorem xorAppliesOneKeystreamByte : Obligations.XorAppliesOneKeystreamByte := by
  refine ⟨decode_eq_ok_xor_iff, fun d s => ?_⟩
  rcases execXor_cases d s with ⟨hp, he⟩ | ⟨hp, he⟩
  · exact ⟨_, _, he, rfl, rfl, rfl, fun _ => ⟨rfl, hp, rfl⟩, fun hn => absurd hp hn⟩
  · have hbyte := (xorByte d (prga s.cipher).1).isLt
    refine ⟨_, _, he, rfl, rfl, rfl, fun hu => absurd hu hp, fun _ => ⟨rfl, rfl, ?_, ?_⟩⟩
    · rw [responseWord_ok_zext12_toNat, Nat.div_eq_of_lt hbyte]
    · rw [responseWord_ok_zext12_toNat, Nat.mod_eq_of_lt hbyte]
      rfl

/-! ### The key bytes staged by `KEY` -/

/-- The staging buffer holds the key bytes `ks`, counted up to 256, an overflow where there were more (R18, R19). -/
structure Staging.Holds (b : Staging) (ks : List Byte) : Prop where
  klen : b.klen.val = min ks.length 256
  kovf : b.kovf = true ↔ 256 < ks.length
  key : ∀ k : Byte, b.K.read k = ks.getD k.toNat 0x00#8

theorem clearedStaging_holds_nil (b : Staging) : (clearedStaging b).Holds [] :=
  ⟨rfl, by simp, by simp⟩

/-- With no more bytes than the buffer takes, all are counted and none is discarded. -/
theorem Staging.Holds.fits {b : Staging} {ks : List Byte} (h : b.Holds ks) (hlen : ks.length ≤ 256) :
    b.kovf = false ∧ b.klen.val = ks.length :=
  ⟨eq_false_of_ne_true fun ho => absurd (h.kovf.mp ho) (by omega), by rw [h.klen, Nat.min_eq_left hlen]⟩

/-- A list with one more element reads that element at its end, and the old list everywhere else. -/
theorem getD_append_singleton (ks : List Byte) (d d₀ : Byte) (n : Nat) :
    (ks ++ [d]).getD n d₀ = if n = ks.length then d else ks.getD n d₀ := by
  rcases Nat.lt_trichotomy n ks.length with hlt | rfl | hgt
  · rw [List.getD_append _ _ _ _ hlt, if_neg (by omega)]
  · simp
  · rw [if_neg (by omega), List.getD_eq_default ks d₀ (by omega), List.getD_eq_default]
    simpa using hgt

/-- R52: `KPUSH d` puts `d` after the bytes that are there, or records that there was no room for it. -/
theorem Staging.Holds.pushed {b : Staging} {ks : List Byte} (h : b.Holds ks) (d : Byte) :
    (pushedStaging d b).Holds (ks ++ [d]) := by
  obtain ⟨hklen, hkovf, hkey⟩ := h
  by_cases hroom : ks.length < 256
  · have hlen : b.klen.val = ks.length := by omega
    obtain ⟨hklen', hkovf', -⟩ := pushedStaging_of_room d (b := b) (by omega)
    refine ⟨?_, ?_, fun k => ?_⟩
    · rw [hklen', List.length_append, List.length_singleton]
      omega
    · rw [hkovf', hkovf, List.length_append, List.length_singleton]
      omega
    · rw [pushedStaging_read_of_room d (by omega), hkey, hlen, getD_append_singleton]
  · rw [pushedStaging_of_full d (by omega)]
    refine ⟨?_, ?_, fun k => ?_⟩
    · rw [List.length_append]
      show b.klen.val = _
      omega
    · exact ⟨fun _ => by rw [List.length_append, List.length_singleton]; omega, fun _ => rfl⟩
    · have := k.isLt
      rw [List.getD_append _ _ _ _ (by omega)]
      exact hkey k

/-- The core `t` after a `KEY ks` on the core `s`: the key staged, an `OK` per word, and nothing else written. -/
structure KeyStaged (ks : List Byte) (s t : State) : Prop where
  staging : t.staging.Holds ks
  cipher : t.cipher = s.cipher
  phase : t.phase = s.phase
  port : t.port = s.port
  responses : t.responses = s.responses ++ List.replicate (ks.length + 1) 0x0000#16

theorem perform_encode (i : Instr) (s : State) : perform (encode i) s = exec i s :=
  perform_of_decode (decode_encode i) s

theorem KeyStaged.of_kclr (s : State) : KeyStaged [] s ((clearKey s).deliver 0x0000#16) :=
  ⟨clearedStaging_holds_nil s.staging, rfl, rfl, rfl, rfl⟩

theorem KeyStaged.kpush {ks : List Byte} {s t : State} (h : KeyStaged ks s t) (d : Byte) :
    KeyStaged (ks ++ [d]) s ((t.setStaging (pushedStaging d t.staging)).deliver 0x0000#16) := by
  obtain ⟨hstaging, hcipher, hphase, hport, hresponses⟩ := h
  refine ⟨hstaging.pushed d, hcipher, hphase, hport, ?_⟩
  rw [State.deliver_responses, State.setStaging_responses, hresponses, List.append_assoc, List.length_append,
    List.length_singleton, ← List.replicate_succ']

/-- `KPUSH`es go on from the key bytes already staged. -/
theorem KeyStaged.kpushes {before : List Byte} {s t : State} (h : KeyStaged before s t) (ks : List Byte) :
    ∃ u : State, performAll (ks.map fun k => encode (.kpush k)) t = .next u ∧ KeyStaged (before ++ ks) s u := by
  induction ks generalizing before t with
  | nil => exact ⟨t, rfl, by rwa [List.append_nil]⟩
  | cons k ks ih =>
    obtain ⟨u, hu, staged⟩ := ih (h.kpush k)
    refine ⟨u, ?_, by rwa [List.append_cons]⟩
    rw [List.map_cons, performAll_cons, perform_encode]
    exact hu

/-- R49, R52: `KEY ks` stages `ks`. -/
theorem performAll_keyWords (ks : List Byte) (s : State) :
    ∃ t : State, performAll (keyWords ks) s = .next t ∧ KeyStaged ks s t := by
  obtain ⟨t, ht, staged⟩ := (KeyStaged.of_kclr s).kpushes ks
  refine ⟨t, ?_, staged⟩
  rw [keyWords, performAll_cons, perform_encode]
  exact ht

/-! ### `INITIALIZE` by the length of the key -/

/-- The source's KSA reads only the bytes of its key. -/
theorem reference_ksaRounds_congr {key key' : Nat → Nat} {length : Nat} (hpos : 0 < length)
    (h : ∀ n < length, key n = key' n) (count : Nat) :
    Reference.ksaRounds key length count = Reference.ksaRounds key' length count := by
  induction count with
  | zero => rfl
  | succ n ih =>
    unfold Reference.ksaRounds
    rw [ih, h _ (Nat.mod_lt n hpos)]

/-- The key staged from a list of at most 256 bytes is that list, byte by byte. -/
theorem Staging.Holds.stagedKey_eq {b : Staging} {ks : List Byte} (h : b.Holds ks) {n : Nat} (hn : n < 256) :
    stagedKey b n = listedKey ks n := by
  show (b.K.read (byteOfNat n)).toNat = _
  rw [h.key, byteOfNat_toNat hn]
  rfl

/-- R54: the Cipher State the KSA builds from a staged list of 5 to 256 bytes is the source's for that list. -/
theorem Staging.Holds.ksa_matches {b : Staging} {ks : List Byte} (h : b.Holds ks) (hlen : validLength ks.length)
    (c : CipherState) :
    (ksa b.K b.klen.val c).Matches (Reference.initial (listedKey ks) ks.length) := by
  obtain ⟨hmin, hmax⟩ := hlen
  obtain ⟨-, hklen⟩ := h.fits hmax
  have hkey : Reference.initial (stagedKey b) b.klen.val = Reference.initial (listedKey ks) ks.length := by
    unfold Reference.initial
    rw [hklen, reference_ksaRounds_congr (by omega) fun n hn => h.stagedKey_eq (by omega)]
  exact hkey ▸ Machine.ksa_matches b c

/-- `INITIALIZE ks` takes the core `s` to `t`, its `INIT` answered by `r` and the staged key cleared (R55, R56). -/
structure Initialises (ks : List Byte) (s t : State) (r : Word) : Prop where
  performs : performAll (initKeyWords ks) s = .next t
  klen : t.staging.klen.val = 0
  kovf : t.staging.kovf = false
  port : t.port = s.port
  responses : t.responses = s.responses ++ List.replicate (ks.length + 1) 0x0000#16 ++ [r]

/-- `INITIALIZE` is `KEY` and then `INIT`, whose one response is the last. -/
theorem Initialises.of_execInit {ks : List Byte} {s k t : State} {r : Word}
    (hkey : performAll (keyWords ks) s = .next k) (staged : KeyStaged ks s k) (hinit : execInit k = .next t)
    (hresp : t.responses = k.responses ++ [r]) : Initialises ks s t r := by
  obtain ⟨hstaging, hport⟩ := execInit_clears_key hinit
  refine ⟨?_, by simp [hstaging], by simp [hstaging], hport.trans staged.port, by rw [hresp, staged.responses]⟩
  have hperform : perform (encode .init) k = .next t := (perform_encode .init k).trans hinit
  simp only [initKeyWords, performAll_append, performAll_cons, performAll_nil, hkey, hperform, andThen_next]

/-- R53, R56: `INITIALIZE` with a key of 5 to 256 bytes. -/
theorem initialises_of_validLength {ks : List Byte} (hlen : validLength ks.length) (s : State) :
    ∃ t : State, Initialises ks s t 0x0000#16 ∧ t.phase = .scheduled ∧
      t.cipher.Matches (Reference.initial (listedKey ks) ks.length) := by
  obtain ⟨k, hk, staged⟩ := performAll_keyWords ks s
  obtain ⟨hkovf, hklen⟩ := staged.staging.fits hlen.2
  have hvalid : k.staging.valid := ⟨hkovf, hklen ▸ hlen.1⟩
  exact ⟨_, .of_execInit hk staged (execInit_of_valid hvalid) rfl, rfl, staged.staging.ksa_matches hlen k.cipher⟩

/-- R53, R56: `INITIALIZE` with a key of fewer than 5 bytes. -/
theorem initialises_of_short {ks : List Byte} (hlen : ks.length < 5) (s : State) :
    ∃ t : State, Initialises ks s t 0x1005#16 ∧ t.phase = .uninit ∧ t.cipher = s.cipher := by
  obtain ⟨k, hk, staged⟩ := performAll_keyWords ks s
  obtain ⟨hkovf, hklen⟩ := staged.staging.fits (by omega)
  exact ⟨_, .of_execInit hk staged (execInit_of_short hkovf (by omega)) rfl, rfl, staged.cipher⟩

/-- R53, R56: `INITIALIZE` with a key of more than 256 bytes. -/
theorem initialises_of_long {ks : List Byte} (hlen : 256 < ks.length) (s : State) :
    ∃ t : State, Initialises ks s t 0x2100#16 ∧ t.phase = .uninit ∧ t.cipher = s.cipher := by
  obtain ⟨k, hk, staged⟩ := performAll_keyWords ks s
  have hover : k.staging.kovf = true := staged.staging.kovf.mpr hlen
  exact ⟨_, .of_execInit hk staged (execInit_of_overflow hover) rfl, rfl, staged.cipher⟩

/-! ### `APPLY` and `APPLY_STATIC` -/

/-- `APPLY` always goes on, and does to the core what its words do (R49, R65). -/
theorem applyBuffer_performs (ds : List Byte) (s : State) :
    ∃ (t : State) (out : List Byte), applyBuffer ds s = .next (t, out) ∧ performAll (applyWords ds) s = .next t := by
  induction ds generalizing s with
  | nil => exact ⟨s, [], rfl, rfl⟩
  | cons d ds ih =>
    obtain ⟨u, hu⟩ := execXor_next d s
    have hperform : perform (encode (.xor d)) s = .next u := (perform_encode (.xor d) s).trans hu
    obtain ⟨t, out, hbuffer, hwords⟩ := ih u
    refine ⟨t, (if isOk (lastResponse u) then resultByte (lastResponse u) else d) :: out, ?_, ?_⟩
    · simp only [applyBuffer, issue, hperform, andThen_next, hbuffer]
    · rw [applyWords, List.map_cons, performAll_cons, hperform]
      exact hwords

/-- `initialiseKey` performs the words of `INITIALIZE`, and its result is the response of the last of them (R56). -/
theorem initialiseKey_eq (ks : List Byte) (s : State) :
    initialiseKey ks s = andThen (performAll (initKeyWords ks) s) fun t => .next (t, lastResponse t) := by
  obtain ⟨k, hk, -⟩ := performAll_keyWords ks s
  obtain ⟨t, ht⟩ := execInit_next k
  have hperform : perform (encode .init) k = .next t := (perform_encode .init k).trans ht
  simp only [initialiseKey, issue, initKeyWords, performAll_append, performAll_cons, performAll_nil, hk, hperform,
    andThen_next]

section
variable {ks : List Byte} {s t : State} {r : Word} (h : Initialises ks s t r)
include h

/-- The result of `INITIALIZE` is the response of its `INIT` (R56). -/
theorem Initialises.lastResponse_eq : lastResponse t = r := by
  unfold lastResponse
  rw [h.responses, List.getLastD_concat]

theorem Initialises.initialiseKey_next : initialiseKey ks s = .next (t, r) := by
  rw [initialiseKey_eq, h.performs, andThen_next, h.lastResponse_eq]

/-- R66: after an `INIT` that is not `OK`, `APPLY_STATIC` stops, the error reported and no `XOR` issued. -/
theorem Initialises.applyStatic_of_error (ds : List Byte) (hr : isOk r = false) :
    runPseudo (.applyStatic ks ds) s = .next t ∧
      applyStatic ks ds s = .next { core := t, buffer := ds, error := keyErrorOf r } := by
  constructor
  · simp [runPseudo, pseudoWords, h.performs, h.lastResponse_eq, hr]
  · simp [applyStatic, h.initialiseKey_next, hr]

/-- R66: after an `INIT` that is `OK`, `APPLY_STATIC` is `APPLY` on the whole buffer. -/
theorem Initialises.applyStatic_of_ok {ds out : List Byte} {u : State} (hr : isOk r = true)
    (hbuffer : applyBuffer ds t = .next (u, out)) :
    applyStatic ks ds s = .next { core := u, buffer := out, error := none } := by
  simp [applyStatic, h.initialiseKey_next, hr, hbuffer]

/-- The words of `APPLY_STATIC` after an `INIT` that is `OK`: those of `APPLY` (R49). -/
theorem Initialises.runPseudo_of_ok (ds : List Byte) (hr : isOk r = true) :
    runPseudo (.applyStatic ks ds) s = performAll (applyWords ds) t := by
  simp [runPseudo, pseudoWords, guardedWords, h.performs, h.lastResponse_eq, hr]

end

/-- Settles O37: the length of the key decides the response of `INIT`, and that response decides whether the buffer is
applied. -/
theorem applyStaticStopsOnAKeyError : Obligations.ApplyStaticStopsOnAKeyError := by
  refine fun ks ds s => ⟨fun hshort => ?_, fun hlong => ?_, fun hvalid => ?_⟩
  · obtain ⟨t, init, hphase, -⟩ := initialises_of_short hshort s
    exact ⟨t, init.performs, hphase, init.applyStatic_of_error ds rfl⟩
  · obtain ⟨t, init, hphase, -⟩ := initialises_of_long hlong s
    exact ⟨t, init.performs, hphase, init.applyStatic_of_error ds rfl⟩
  · obtain ⟨t, init, -⟩ := initialises_of_validLength hvalid s
    obtain ⟨u, out, hbuffer, hwords⟩ := applyBuffer_performs ds t
    exact ⟨t, u, out, init.performs, hbuffer, hwords, (init.runPseudo_of_ok ds rfl).trans hwords,
      init.applyStatic_of_ok rfl hbuffer⟩

/-- Settles O38: with no bytes the core stays where `INITIALIZE` left it. -/
theorem emptyBufferIsANoOp : Obligations.EmptyBufferIsANoOp := by
  refine ⟨fun s => ⟨rfl, rfl⟩, fun ks s => ⟨fun hvalid => ?_, fun hshort => ?_, fun hlong => ?_⟩⟩
  · obtain ⟨t, init, hphase, hmatches⟩ := initialises_of_validLength hvalid s
    exact ⟨t, init.applyStatic_of_ok rfl rfl, hphase, hmatches⟩
  · obtain ⟨t, init, -⟩ := initialises_of_short hshort s
    exact ⟨t, (init.applyStatic_of_error [] rfl).2⟩
  · obtain ⟨t, init, -⟩ := initialises_of_long hlong s
    exact ⟨t, (init.applyStatic_of_error [] rfl).2⟩

end Sys2Proof.Machine

/-! PROOFS. The status read (spec/43_status.md): the word `STAT` answers, by the bit positions of the `STATUS` view
(R70), and a `STAT` put into a sequence of words (R71). The second rests on this: no command reads the responses
delivered so far, and on the core itself `STAT` writes nothing. -/

namespace Sys2Proof.Machine

/-! ### The `STATUS` view, field by field -/

theorem phaseNumber_le (p : Phase) : phaseNumber p ≤ 2 := by
  cases p <;> decide

section
variable (s : State)

/-- R70: the largest payload is that of `RUNNING` with an overflow of a full key. -/
theorem statusNumber_le : statusNumber s ≤ 0xB00 := by
  have hphase := phaseNumber_le s.phase
  have hklen := s.staging.klen.isLt
  unfold statusNumber
  split <;> omega

/-- `P[11:10]` of the view. -/
theorem statusNumber_div : statusNumber s / 1024 = phaseNumber s.phase := by
  have hklen := s.staging.klen.isLt
  unfold statusNumber
  split <;> omega

/-- `P[9]` of the view. -/
theorem statusNumber_bit9 : statusNumber s / 512 % 2 = 1 ↔ s.staging.kovf = true := by
  have hklen := s.staging.klen.isLt
  unfold statusNumber
  by_cases hkovf : s.staging.kovf = true
  · rw [if_pos hkovf, iff_true_right hkovf]
    omega
  · rw [if_neg hkovf, iff_false_right hkovf]
    omega

/-- `P[8:0]` of the view. -/
theorem statusNumber_mod : statusNumber s % 512 = s.staging.klen.val := by
  have hklen := s.staging.klen.isLt
  unfold statusNumber
  split <;> omega

/-- The word `STAT` answers in `s` (R70). -/
def statusWord (s : State) : Word := responseWord .ok (statusView s.phase s.staging)

/-- `RC = OK` is 0, so that the whole response word is the number of the view. -/
theorem statusWord_toNat : (statusWord s).toNat = statusNumber s := by
  unfold statusWord
  rw [responseWord_toNat, statusView_toNat]
  simp [ResponseCode.code]

/-- The only word of `STAT` (R43) delivers the view and writes nothing else. -/
theorem perform_statWord : perform 0x5000#16 s = .next (s.deliver (statusWord s)) :=
  (perform_encode .stat s).trans (execStat_eq s)

end

/-! ### The core does not read the responses it has delivered -/

/-- Replace the responses delivered so far: the host's record, which is no state of the core (log 7). -/
def State.setResponses (rs : List Word) (s : State) : State := { s with responses := rs }

theorem State.setResponses_self (s : State) : s.setResponses s.responses = s := rfl

theorem State.deliver_setResponses (s : State) (rs : List Word) (r : Word) :
    (s.setResponses rs).deliver r = s.setResponses (rs ++ [r]) := rfl

theorem statusWord_setResponses (s : State) (rs : List Word) : statusWord (s.setResponses rs) = statusWord s := rfl

/-- States that differ in the responses alone have the same core. -/
theorem sameCore_setResponses (s : State) (rs rs' : List Word) : SameCore (s.setResponses rs) (s.setResponses rs') :=
  ⟨rfl, rfl, rfl⟩

/-- What a command does to the core, and the word it answers, are the same whatever was answered before. -/
theorem exec_setResponses (i : Instr) (s : State) :
    ∃ (t : State) (r : Word), ∀ rs : List Word,
      exec i (s.setResponses rs) = .next (t.setResponses (rs ++ [r])) := by
  cases i with
  | kclr => exact ⟨clearKey s, _, fun rs => execKclr_eq (s.setResponses rs)⟩
  | kpush d => exact ⟨s.setStaging (pushedStaging d s.staging), _, fun rs => execKpush_eq d (s.setResponses rs)⟩
  | init =>
    rcases validate_cases s.staging with ⟨hover, -⟩ | ⟨hkovf, hshort, -⟩ | ⟨hkovf, hlong, -⟩
    · exact ⟨clearKey (s.setPhase .uninit), _, fun rs => execInit_of_overflow (s := s.setResponses rs) hover⟩
    · exact ⟨clearKey (s.setPhase .uninit), _, fun rs => execInit_of_short (s := s.setResponses rs) hkovf hshort⟩
    · exact ⟨clearKey ((s.setCipher (ksa s.staging.K s.staging.klen.val s.cipher)).setPhase .scheduled), _,
        fun rs => execInit_of_valid (s := s.setResponses rs) ⟨hkovf, hlong⟩⟩
  | xor d =>
    by_cases hphase : s.phase = .uninit
    · exact ⟨s, _, fun rs => execXor_of_uninit d (s := s.setResponses rs) hphase⟩
    · exact ⟨(s.setCipher (prga s.cipher).2).setPhase .running,
        responseWord .ok (zext12 (xorByte d (prga s.cipher).1)),
        fun rs => execXor_of_ready d (s := s.setResponses rs) hphase⟩
  | stat => exact ⟨s, statusWord s, fun rs => execStat_eq (s.setResponses rs)⟩

/-- The same for any word, legal or not. -/
theorem perform_setResponses (w : Word) (s : State) :
    ∃ (t : State) (r : Word), ∀ rs : List Word,
      perform w (s.setResponses rs) = .next (t.setResponses (rs ++ [r])) := by
  cases hd : decode w with
  | ok i =>
    obtain ⟨t, r, ht⟩ := exec_setResponses i s
    exact ⟨t, r, fun rs => (perform_of_decode hd _).trans (ht rs)⟩
  | error e => exact ⟨s, _, fun rs => perform_of_error hd (s.setResponses rs)⟩

/-- The same for a sequence of words, with one response for each. -/
theorem performAll_setResponses (ws : List Word) (s : State) :
    ∃ (t : State) (ra : List Word), ra.length = ws.length ∧ ∀ rs : List Word,
      performAll ws (s.setResponses rs) = .next (t.setResponses (rs ++ ra)) := by
  induction ws generalizing s with
  | nil => exact ⟨s, [], rfl, fun rs => by rw [List.append_nil, performAll_nil]⟩
  | cons w ws ih =>
    obtain ⟨u, r, hu⟩ := perform_setResponses w s
    obtain ⟨t, ra, hlen, ht⟩ := ih u
    refine ⟨t, r :: ra, congrArg (· + 1) hlen, fun rs => ?_⟩
    rw [performAll_cons, hu, andThen_next, ht, ← List.append_cons]

/-- A `STAT` before other words adds its own response to those before it, and the other words go on from the core they
would have found without it. -/
theorem performAll_statWord_cons (vs : List Word) (s : State) (rs : List Word) :
    performAll (0x5000#16 :: vs) (s.setResponses rs) = performAll vs (s.setResponses (rs ++ [statusWord s])) := by
  rw [performAll_cons, perform_statWord, andThen_next, State.deliver_setResponses, statusWord_setResponses]

/-! ### The obligations -/

/-- Settles O40: `STAT` delivers the `STATUS` view, whose fields are read off its number. -/
theorem statAnswersTheStatusView : Obligations.StatAnswersTheStatusView := by
  refine ⟨fun w => decode_eq_ok_iff_eq_encode w .stat, fun s =>
    ⟨_, statusWord s, execStat_eq s, ⟨rfl, rfl, rfl⟩, rfl, rfl, statusWord_toNat s, ?_⟩⟩
  rw [statusWord_toNat]
  exact ⟨statusNumber_le s, statusNumber_div s, statusNumber_bit9 s, statusNumber_mod s⟩

/-- Settles O41: the words after the `STAT` start from the same core, and differ only in the responses before them. -/
theorem statChangesNoOtherResponse : Obligations.StatChangesNoOtherResponse := by
  intro ws vs s
  obtain ⟨u, ra, hra, hws⟩ := performAll_setResponses ws s
  obtain ⟨t, rb, hrb, hvs⟩ := performAll_setResponses vs u
  have upToStat := hws s.responses
  rw [State.setResponses_self] at upToStat
  refine ⟨t.setResponses (s.responses ++ ra ++ rb), t.setResponses (s.responses ++ ra ++ [statusWord u] ++ rb),
    ra, rb, statusWord u, ?_, ?_, sameCore_setResponses t _ _, rfl, hra, hrb, rfl, (List.append_cons _ _ _).symm⟩
  · rw [performAll_append, upToStat, andThen_next, hvs]
  · rw [performAll_append, upToStat, andThen_next, performAll_statWord_cons, hvs]

end Sys2Proof.Machine

/-! PROOFS. The encoding of a command word: its fields (spec/30_encoding.md R40, R41), the expansions of the
pseudo-instructions (R49), and the byte-wide link (spec/20_memory.md R32). -/

namespace Sys2Proof

/-- Settles O1: the decoder reads a command from exactly one word, the one the encoder writes. The check
`wf` is not needed: every `Instr` passes it. -/
theorem decodeReadsExactlyWhatEncodeWrites : Obligations.DecodeReadsExactlyWhatEncodeWrites :=
  fun i w _ => decode_eq_ok_iff_eq_encode w i

/-- Settles O4: each word is the encoding of the command beside it. -/
theorem wordsDecodeAsTheTableSpellsThem : Obligations.WordsDecodeAsTheTableSpellsThem :=
  ⟨decode_encode .kclr, decode_encode (.kpush 0b10100101#8), decode_encode .init, decode_encode (.xor 0b00001111#8),
    decode_encode .stat⟩

/-! ### The fields of a word -/

/-- The three fields side by side are the whole word (R40). -/
theorem fields_append (w : Word) : opField w ++ rsvField w ++ dataField w = w := by
  unfold opField rsvField dataField
  rw [BitVec.extractLsb'_append_extractLsb'_eq_extractLsb' (by rfl),
    BitVec.extractLsb'_append_extractLsb'_eq_extractLsb' (by rfl), BitVec.extractLsb'_eq_self]

/-- Settles O5: the number of each field, and the word they make up. -/
theorem fieldsAreCutAtTheirBitPositions : Obligations.FieldsAreCutAtTheirBitPositions :=
  fun w => ⟨opField_toNat w, rsvField_toNat w, dataField_toNat w, (fields_append w).symm⟩

/-! ### The byte-wide link -/

/-- The two bytes of a word, as numbers (R32). -/
theorem bytesOfWord_eq (w : Word) :
    bytesOfWord w = [BitVec.ofNat 8 (w.toNat / 256), BitVec.ofNat 8 (w.toNat % 256)] := by
  have hlow : w.extractLsb' 0 8 = BitVec.ofNat 8 (w.toNat % 256) :=
    BitVec.eq_of_toNat_eq (by rw [BitVec.extractLsb'_toNat, BitVec.toNat_ofNat, Nat.mod_mod, Nat.shiftRight_zero])
  have hhigh : w.extractLsb' 8 8 = BitVec.ofNat 8 (w.toNat / 256) :=
    BitVec.eq_of_toNat_eq (by rw [BitVec.extractLsb'_toNat, BitVec.toNat_ofNat, Nat.shiftRight_eq_div_pow])
  rw [bytesOfWord, hlow, hhigh]

/-- The two bytes of a word make up that word again (R32). -/
theorem wordOfBytes_bytes (w : Word) : wordOfBytes (w.extractLsb' 8 8) (w.extractLsb' 0 8) = w := by
  unfold wordOfBytes
  rw [BitVec.extractLsb'_append_extractLsb'_eq_extractLsb' (by rfl), BitVec.extractLsb'_eq_self]

theorem decodeBytes_bytesOfWord (w : Word) (rest : List Byte) :
    decodeBytes (bytesOfWord w ++ rest) = (decode w).map fun i => (i, rest) := by
  show (decode (wordOfBytes (w.extractLsb' 8 8) (w.extractLsb' 0 8))).map (fun i => (i, rest)) = _
  rw [wordOfBytes_bytes]

/-- Settles O6: the bytes of a word, and the command read back from them. -/
theorem byteLinkCarriesTheHighByteFirst : Obligations.ByteLinkCarriesTheHighByteFirst := by
  refine fun w i rest => ⟨bytesOfWord_eq w, fun hdecode => ?_⟩
  rw [decodeBytes_bytesOfWord, hdecode]
  rfl

end Sys2Proof

namespace Sys2Proof.Machine

/-! ### The expansions of the pseudo-instructions -/

/-- An operand added to an opcode does not carry out of the word (R49). -/
theorem toNat_add_operand {op : Word} (h : op.toNat ≤ 0xff00) (d : Byte) :
    (op + d.setWidth 16).toNat = op.toNat + d.toNat := by
  have := d.isLt
  rw [BitVec.toNat_add, BitVec.toNat_setWidth]
  omega

theorem encode_kpush (k : Byte) : encode (.kpush k) = 0x2000#16 + k.setWidth 16 :=
  ((decode_eq_ok_iff_eq_encode _ _).mp ((decode_eq_ok_kpush_iff _ k).mpr (toNat_add_operand (by decide) k))).symm

theorem encode_xor (d : Byte) : encode (.xor d) = 0x4000#16 + d.setWidth 16 :=
  ((decode_eq_ok_iff_eq_encode _ _).mp ((decode_eq_ok_xor_iff _ d).mpr (toNat_add_operand (by decide) d))).symm

theorem keyWords_eq (ks : List Byte) :
    keyWords ks = 0x1000#16 :: ks.map (fun k => 0x2000#16 + k.setWidth 16) := by
  rw [keyWords, funext encode_kpush]
  rfl

theorem initKeyWords_eq (ks : List Byte) :
    initKeyWords ks = 0x1000#16 :: ks.map (fun k => 0x2000#16 + k.setWidth 16) ++ [0x3000#16] := by
  rw [initKeyWords, keyWords_eq]
  rfl

theorem applyWords_eq (ds : List Byte) : applyWords ds = ds.map fun d => 0x4000#16 + d.setWidth 16 := by
  rw [applyWords, funext encode_xor]

/-- Settles O7: every expansion is a list of `KEY`, `INITIALIZE` or `APPLY` words. -/
theorem pseudoInstructionsExpandToTheirWords : Obligations.PseudoInstructionsExpandToTheirWords :=
  ⟨encode_toNat, fun ks ds => ⟨keyWords_eq ks, initKeyWords_eq ks, rfl, applyWords_eq ds, initKeyWords_eq ks,
    applyWords_eq ds⟩⟩

end Sys2Proof.Machine

/-! PROOFS. The step: what makes it stop (spec/30_encoding.md R47), a run over a port of words (spec/20_memory.md R37),
what each command leaves unchanged (spec/10_state.md R28), and the invariant (R19, R26, R30). -/

namespace Sys2Proof.Machine

/-! ### One step, by the next event on the port -/

/-- Settles O8: the step performs the word, and the decoder says what that is. -/
theorem stepPerformsTheDecodedCommand : Obligations.StepPerformsTheDecodedCommand := by
  intro s w rest hport
  rw [step_of_command hport]
  exact ⟨fun i hi _ => perform_of_decode hi _, fun e he => perform_of_error he _⟩

/-- A command word, legal or not, never stops the machine. -/
theorem perform_next (w : Word) (s : State) : ∃ t : State, perform w s = .next t := by
  obtain ⟨t, -, -, ht, -⟩ := perform_answers w s
  exact ⟨t, ht⟩

/-- Settles O10: an empty port waits, a word is answered, a reset goes on, and an overlap is refused. -/
theorem stepStopsOnlyOnAnOverlappingWrite : Obligations.StepStopsOnlyOnAnOverlappingWrite := by
  intro s
  cases hport : s.port with
  | nil => exact .inr ⟨by simp, s, step_of_empty hport⟩
  | cons e rest =>
    rw [step_of_event hport]
    cases e with
    | command w => exact .inr ⟨by simp, perform_next w _⟩
    | reset => exact .inr ⟨by simp, _, accept_reset _⟩
    | resetDuring w => exact .inr ⟨by simp, _, accept_resetDuring w _⟩
    | overlap a b => exact .inl ⟨⟨a, b, rest, rfl⟩, accept_overlap a b _⟩

/-- Both forms of reset are the same step. -/
theorem step_of_reset {s : State} {w : Word} {rest : List HostEvent}
    (h : s.port = .reset :: rest ∨ s.port = .resetDuring w :: rest) : step s = .next (resetEvent (s.setPort rest)) := by
  rcases h with h | h
  · exact (step_of_event h).trans (accept_reset _)
  · exact (step_of_event h).trans (accept_resetDuring w _)

/-- R29: `STATUS` reads 0 after reset. -/
theorem statusView_reset : statusView .uninit State.reset.staging = 0x000#12 := by decide

/-- Settles O11: a reset puts the core's registers at their reset values and leaves the host's lists. -/
theorem resetEventRestoresTheSpecifiedResetValues : Obligations.ResetEventRestoresTheSpecifiedResetValues :=
  fun _ _ _ hport => ⟨_, step_of_reset hport, rfl, rfl, rfl, statusView_reset, rfl, rfl⟩

/-! ### A run over a port of words -/

/-- A command does not read the host's later events, and leaves them on the port (R37). -/
theorem exec_setPort {i : Instr} {s t : State} (h : exec i s = .next t) (es : List HostEvent) :
    exec i (s.setPort es) = .next (t.setPort es) := by
  cases i with
  | kclr =>
    cases (execKclr_eq s).symm.trans h
    exact execKclr_eq (s.setPort es)
  | kpush d =>
    cases (execKpush_eq d s).symm.trans h
    exact execKpush_eq d (s.setPort es)
  | init =>
    rcases execInit_cases s with ⟨hkovf, hlong, he⟩ | ⟨hover, he⟩ | ⟨hkovf, hshort, he⟩
    · cases he.symm.trans h
      exact execInit_of_valid (s := s.setPort es) ⟨hkovf, hlong⟩
    · cases he.symm.trans h
      exact execInit_of_overflow (s := s.setPort es) hover
    · cases he.symm.trans h
      exact execInit_of_short (s := s.setPort es) hkovf hshort
  | xor d =>
    rcases execXor_cases d s with ⟨hphase, he⟩ | ⟨hphase, he⟩
    · cases he.symm.trans h
      exact execXor_of_uninit d (s := s.setPort es) hphase
    · cases he.symm.trans h
      exact execXor_of_ready d (s := s.setPort es) hphase
  | stat =>
    cases (execStat_eq s).symm.trans h
    exact execStat_eq (s.setPort es)

/-- The same for any word, legal or not. -/
theorem perform_setPort {w : Word} {s t : State} (h : perform w s = .next t) (es : List HostEvent) :
    perform w (s.setPort es) = .next (t.setPort es) := by
  cases hd : decode w with
  | ok i => exact (perform_of_decode hd _).trans (exec_setPort ((perform_of_decode hd s).symm.trans h) es)
  | error e =>
    cases (perform_of_error hd s).symm.trans h
    exact perform_of_error hd (s.setPort es)

/-- Settles O12: word by word; a word leaves the same core whether the later words are on the port yet or not. -/
theorem runPerformsThePortInOrder : Obligations.RunPerformsThePortInOrder := by
  intro ws s rest
  induction ws generalizing s with
  | nil => rfl
  | cons w ws ih =>
    obtain ⟨t, ht⟩ := perform_next w s
    have hstep : step (s.setPort ((w :: ws).map .command ++ rest)) = .next (t.setPort (ws.map .command ++ rest)) :=
      (step_of_command rfl).trans (perform_setPort ht _)
    rw [List.length_cons, core_run_of_step _ hstep, ih, performAll_cons, perform_setPort ht, andThen_next]

/-! ### What a command leaves unchanged -/

theorem isInitWord_encode (i : Instr) : isInitWord (encode i) ↔ i = .init := by
  rw [isInitWord, decode_encode, Except.ok.injEq]

theorem isXorWord_encode (i : Instr) : isXorWord (encode i) ↔ ∃ d : Byte, i = .xor d := by
  simp only [isXorWord, decode_encode, Except.ok.injEq]

section
variable {i : Instr} {s t : State} (h : exec i s = .next t)
include h

theorem cipher_phase_of_staging_command (hi : i = .kclr ∨ (∃ d : Byte, i = .kpush d) ∨ i = .stat) :
    t.cipher = s.cipher ∧ t.phase = s.phase := by
  have hinit : ¬isInitWord (encode i) := by
    rw [isInitWord_encode]
    rintro rfl
    simp at hi
  have hxor : ¬isXorWord (encode i) := by
    rw [isXorWord_encode]
    rintro ⟨d, rfl⟩
    simp at hi
  exact (phase_cipher_of_other_word ((perform_encode i s).trans h) hinit hxor).symm

theorem staging_of_xor_or_stat (hi : (∃ d : Byte, i = .xor d) ∨ i = .stat) : t.staging = s.staging := by
  rcases hi with ⟨d, rfl⟩ | rfl
  · rcases execXor_cases d s with ⟨-, he⟩ | ⟨-, he⟩ <;>
    · cases he.symm.trans h
      rfl
  · cases (execStat_eq s).symm.trans h
    rfl

/-- R52: with room the byte at `KLEN` alone is written, and with none no byte is. -/
theorem key_of_kpush {d : Byte} (hi : i = .kpush d) {k : Byte} (hk : k.toNat ≠ s.staging.klen.val) :
    t.staging.K.read k = s.staging.K.read k := by
  subst hi
  cases (execKpush_eq d s).symm.trans h
  show (pushedStaging d s.staging).K.read k = _
  by_cases hroom : s.staging.klen.val < 256
  · rw [pushedStaging_read_of_room d hroom, if_neg hk]
  · rw [pushedStaging_of_full d (by omega)]

theorem cipher_phase_of_exec_rejected_xor {d : Byte} (hi : i = .xor d) (hp : s.phase = .uninit) :
    t.cipher = s.cipher ∧ t.phase = s.phase := by
  obtain ⟨hphase, hcipher⟩ :=
    phase_cipher_of_rejected_xor ((perform_encode i s).trans h) ((isXorWord_encode i).mpr ⟨d, hi⟩) hp
  exact ⟨hcipher, hphase.trans hp.symm⟩

theorem cipher_of_exec_rejected_init (hi : i = .init) (hv : ¬s.staging.valid) : t.cipher = s.cipher :=
  (phase_cipher_of_rejected_init ((perform_encode i s).trans h) ((isInitWord_encode i).mpr hi) hv).2

end

/-- Settles O17: the port and the responses by the one rule for all commands, the rest command by command. -/
theorem commandsLeaveTheRestUnchanged : Obligations.CommandsLeaveTheRestUnchanged := by
  intro i s t h
  obtain ⟨u, rc, p, hu, hport, hresponses, -⟩ := exec_answers i s
  cases hu.symm.trans h
  exact ⟨hport, ⟨_, hresponses⟩, cipher_phase_of_staging_command h, staging_of_xor_or_stat h,
    fun _ hi _ hk => key_of_kpush h hi hk, fun _ hi hp => cipher_phase_of_exec_rejected_xor h hi hp,
    cipher_of_exec_rejected_init h⟩

/-! ### The canonical form and the permutation, kept by the KSA and the PRGA -/

theorem ksaRounds_wf (K : Memory) (klen n : Nat) {c : CipherState} (h : c.S.wf = true) :
    (ksaRounds K klen n c).S.wf = true := by
  induction n with
  | zero =>
    rw [ksaRounds_zero]
    exact wf_identityPerm h
  | succ n ih =>
    rw [ksaRounds_succ]
    exact Memory.wf_swap ih _ _

theorem ksa_wf (K : Memory) (klen : Nat) {c : CipherState} (h : c.S.wf = true) : (ksa K klen c).S.wf = true :=
  ksaRounds_wf K klen Config.entries h

theorem prgaNext_isPermutation {c : CipherState} (h : c.S.isPermutation) : (prgaNext c).S.isPermutation :=
  Memory.isPermutation_swap h _ _

theorem prgaNext_wf {c : CipherState} (h : c.S.wf = true) : (prgaNext c).S.wf = true :=
  Memory.wf_swap h _ _

/-- Settles O23: the first loop leaves a permutation in canonical form, and every round is a swap. -/
theorem ksaLeavesAPermutation : Obligations.KsaLeavesAPermutation :=
  fun K klen c => ⟨ksa_isPermutation K klen c, ksa_wf K klen⟩

/-! ### The invariant, kept by each update of the state -/

section
variable {s : State} (h : s.Inv)
include h

theorem State.Inv.deliver (r : Word) : (s.deliver r).Inv :=
  ⟨h.permWf, h.keyWf, h.permutation, h.overflow⟩

theorem State.Inv.setPort (es : List HostEvent) : (s.setPort es).Inv :=
  ⟨h.permWf, h.keyWf, h.permutation, h.overflow⟩

/-- Without a Cipher State nothing is asked of `S` but its form. -/
theorem State.Inv.setUninit : (s.setPhase .uninit).Inv :=
  ⟨h.permWf, h.keyWf, fun hp => absurd rfl hp, h.overflow⟩

/-- A new Cipher State must hold a permutation, whatever phase it comes with. -/
theorem State.Inv.setCipher {c : CipherState} (hw : c.S.wf = true) (hperm : c.S.isPermutation) (p : Phase) :
    ((s.setCipher c).setPhase p).Inv :=
  ⟨hw, h.keyWf, fun _ => hperm, h.overflow⟩

theorem State.Inv.clearKey : (clearKey s).Inv :=
  ⟨h.permWf, clearedStaging_wf h.keyWf, h.permutation, fun ho => by simp at ho⟩

/-- R19, R52: a `KPUSH` sets `KOVF` only where `KLEN` is 256, and leaves `KLEN` there. -/
theorem State.Inv.pushKey (d : Byte) : (s.setStaging (pushedStaging d s.staging)).Inv := by
  refine ⟨h.permWf, pushedStaging_wf d h.keyWf, h.permutation, fun ho => ?_⟩
  rw [State.setStaging_staging] at ho ⊢
  by_cases hroom : s.staging.klen.val < 256
  · obtain ⟨-, hkovf, -⟩ := pushedStaging_of_room d hroom
    have hfull := h.overflow (hkovf ▸ ho)
    omega
  · rw [pushedStaging_of_full d (by omega)]
    show s.staging.klen.val = 256
    omega

theorem exec_keeps_inv {i : Instr} {t : State} (he : exec i s = .next t) : t.Inv := by
  cases i with
  | kclr =>
    cases (execKclr_eq s).symm.trans he
    exact h.clearKey.deliver _
  | kpush d =>
    cases (execKpush_eq d s).symm.trans he
    exact (h.pushKey d).deliver _
  | init =>
    by_cases hv : s.staging.valid
    · cases (execInit_of_valid hv).symm.trans he
      exact (h.setCipher (ksa_wf _ _ h.permWf) (ksa_isPermutation _ _ _) _).clearKey.deliver _
    · obtain ⟨r, hr⟩ := execInit_of_not_valid hv
      cases hr.symm.trans he
      exact h.setUninit.clearKey.deliver _
  | xor d =>
    rcases execXor_cases d s with ⟨-, hx⟩ | ⟨hp, hx⟩
    · cases hx.symm.trans he
      exact h.deliver _
    · cases hx.symm.trans he
      exact (h.setCipher (prgaNext_wf h.permWf) (prgaNext_isPermutation (h.permutation hp)) _).deliver _
  | stat =>
    cases (execStat_eq s).symm.trans he
    exact h.deliver _

theorem perform_keeps_inv {w : Word} {t : State} (hw : perform w s = .next t) : t.Inv := by
  cases hd : decode w with
  | ok i => exact exec_keeps_inv h ((perform_of_decode hd s).symm.trans hw)
  | error e =>
    cases (perform_of_error hd s).symm.trans hw
    exact h.deliver _

end

/-- Settles O13: after reset both arrays are the empty list of cells, and no Cipher State and no overflow is there. -/
theorem resetMeetsTheInvariant : Obligations.ResetMeetsTheInvariant :=
  ⟨Memory.wf_nil, Memory.wf_nil, fun hp => absurd rfl hp, fun ho => by cases ho⟩

/-- The invariant does not speak of the host's lists. -/
theorem resetEvent_inv (s : State) : (resetEvent s).Inv :=
  ⟨resetMeetsTheInvariant.permWf, resetMeetsTheInvariant.keyWf, resetMeetsTheInvariant.permutation,
    resetMeetsTheInvariant.overflow⟩

theorem accept_keeps_inv {e : HostEvent} {s t : State} (h : s.Inv) (he : accept e s = .next t) : t.Inv := by
  cases e with
  | command w => exact perform_keeps_inv h he
  | reset =>
    cases (accept_reset s).symm.trans he
    exact resetEvent_inv s
  | resetDuring w =>
    cases (accept_resetDuring w s).symm.trans he
    exact resetEvent_inv s
  | overlap a b => cases (accept_overlap a b s).symm.trans he

/-- Settles O14: a step waits or takes an event, and every event keeps the invariant. -/
theorem stepKeepsTheInvariant : Obligations.StepKeepsTheInvariant := by
  intro s t h hstep
  cases hport : s.port with
  | nil =>
    cases (step_of_empty hport).symm.trans hstep
    exact h
  | cons e rest => exact accept_keeps_inv (h.setPort rest) ((step_of_event hport).symm.trans hstep)

end Sys2Proof.Machine

/-! PROOFS. What no response can show (spec/10_state.md R23, R25, R27): two cores that agree on everything written
answer alike and go on agreeing. An array's entries, and not its cells, are all that the KSA and the PRGA read of it. -/

namespace Sys2Proof.Machine

/-! ### The hidden state -/

theorem statusView_congr {s t : State} (hphase : t.phase = s.phase) (hklen : t.staging.klen = s.staging.klen)
    (hkovf : t.staging.kovf = s.staging.kovf) :
    statusView t.phase t.staging = statusView s.phase s.staging := by
  unfold statusView klenBits
  rw [hphase, hklen, hkovf]

theorem Staging.valid_congr {b b' : Staging} (hklen : b'.klen = b.klen) (hkovf : b'.kovf = b.kovf) :
    b'.valid ↔ b.valid := by
  unfold Staging.valid
  rw [hklen, hkovf]

/-- `INIT` answers two keys of the same `KLEN` and `KOVF` alike: both outcomes, and the threshold, are `validate`'s. -/
theorem execInit_same_response {s t : State} (hklen : t.staging.klen = s.staging.klen)
    (hkovf : t.staging.kovf = s.staging.kovf) :
    (s.staging.valid ∧ t.staging.valid) ∨
    ∃ r : Word, execInit s = .next ((clearKey (s.setPhase .uninit)).deliver r) ∧
      execInit t = .next ((clearKey (t.setPhase .uninit)).deliver r) := by
  rcases execInit_cases s with ⟨hk, hl, -⟩ | ⟨hk, he⟩ | ⟨hk, hl, he⟩
  · exact .inl ⟨⟨hk, hl⟩, (Staging.valid_congr hklen hkovf).mpr ⟨hk, hl⟩⟩
  · exact .inr ⟨_, he, execInit_of_overflow (hkovf.trans hk)⟩
  · exact .inr ⟨_, he, execInit_of_short (hkovf.trans hk) (hklen ▸ hl)⟩

/-- Settles O19: no command but an accepted `XOR` puts anything but `PHASE`, `KLEN` and `KOVF` into its response. -/
theorem onlyXorShowsTheCipherState : Obligations.OnlyXorShowsTheCipherState := by
  intro i s t hxor hphase hklen hkovf
  cases i with
  | kclr => exact ⟨_, _, _, execKclr_eq s, execKclr_eq t, rfl, rfl⟩
  | kpush d => exact ⟨_, _, _, execKpush_eq d s, execKpush_eq d t, rfl, rfl⟩
  | init =>
    rcases execInit_same_response hklen hkovf with ⟨hs, ht⟩ | ⟨r, hs, ht⟩
    · exact ⟨_, _, _, execInit_of_valid hs, execInit_of_valid ht, rfl, rfl⟩
    · exact ⟨_, _, r, hs, ht, rfl, rfl⟩
  | xor d =>
    have hp := hxor d rfl
    exact ⟨_, _, _, execXor_of_uninit d hp, execXor_of_uninit d (hphase.trans hp), rfl, rfl⟩
  | stat =>
    refine ⟨_, _, statusWord s, execStat_eq s, execStat_eq t, rfl, ?_⟩
    rw [State.deliver_responses, statusView_congr hphase hklen hkovf]
    rfl

/-! ### Cipher States that agree -/

/-- Two Cipher States that match one of the source's agree. -/
theorem CipherState.Matches.agrees {c d : CipherState} {r : Reference.Cipher} (hc : c.Matches r) (hd : d.Matches r) :
    c.Agrees d := by
  obtain ⟨hcS, hci, hcj⟩ := hc
  obtain ⟨hdS, hdi, hdj⟩ := hd
  exact ⟨fun k => BitVec.eq_of_toNat_eq ((hcS k).trans (hdS k).symm), BitVec.eq_of_toNat_eq (hci.trans hdi.symm),
    BitVec.eq_of_toNat_eq (hcj.trans hdj.symm)⟩

/-- Two Cipher States that agree are the same data where both arrays are in canonical form (log 6). -/
theorem CipherState.Agrees.eq_of_wf {c d : CipherState} (h : c.Agrees d) (hc : c.S.wf = true) (hd : d.S.wf = true) :
    c = d := by
  obtain ⟨hS, hi, hj⟩ := h
  cases c
  cases d
  cases hi
  cases hj
  cases Memory.eq_of_read hc hd hS
  rfl

section
variable {c d : CipherState} (h : c.Agrees d)
include h

theorem CipherState.Agrees.prgaNext : (prgaNext c).Agrees (prgaNext d) := by
  obtain ⟨hS, hi, hj⟩ := h
  have hi' : (Machine.prgaNext c).i = (Machine.prgaNext d).i := congrArg (addByte · 0x01#8) hi
  have hj' : (Machine.prgaNext c).j = (Machine.prgaNext d).j := by
    show addByte c.j (c.S.read (Machine.prgaNext c).i) = addByte d.j (d.S.read (Machine.prgaNext d).i)
    rw [hj, hS, hi']
  refine ⟨fun k => ?_, hi', hj'⟩
  show (c.S.swap (Machine.prgaNext c).i (Machine.prgaNext c).j).read k =
    (d.S.swap (Machine.prgaNext d).i (Machine.prgaNext d).j).read k
  rw [Memory.read_swap, Memory.read_swap, hi', hj', hS, hS, hS]

theorem CipherState.Agrees.prgaOutput_eq : prgaOutput c = prgaOutput d := by
  obtain ⟨hS, hi, hj⟩ := h
  unfold prgaOutput
  rw [hi, hj, hS, hS, hS]

/-- R60: the keystream byte is a function of the entries of `S` and of the cursors. -/
theorem CipherState.Agrees.prga_byte_eq : (prga c).1 = (prga d).1 := h.prgaNext.prgaOutput_eq

end

/-! ### Staged keys that agree -/

/-- Two staging buffers with the same `KLEN`, `KOVF` and staged key `K[0..KLEN)`. -/
structure Staging.AgreesWhereStaged (b b' : Staging) : Prop where
  klen : b'.klen = b.klen
  kovf : b'.kovf = b.kovf
  key : ∀ k : Byte, k.toNat < b.klen.val → b'.K.read k = b.K.read k

theorem clearedStaging_agrees (b b' : Staging) : (clearedStaging b).AgreesWhereStaged (clearedStaging b') :=
  ⟨rfl, rfl, fun _ h => absurd h (Nat.not_lt_zero _)⟩

/-- The source's KSA reads only the bytes of its key. -/
theorem reference_initial_congr {key key' : Nat → Nat} {length : Nat} (hpos : 0 < length)
    (h : ∀ n < length, key n = key' n) : Reference.initial key length = Reference.initial key' length := by
  unfold Reference.initial
  rw [reference_ksaRounds_congr hpos h]

section
variable {b b' : Staging} (h : b.AgreesWhereStaged b')
include h

/-- R52: the same byte pushed onto two buffers that agree is staged in both or in neither. -/
theorem Staging.AgreesWhereStaged.pushed (d : Byte) : (pushedStaging d b).AgreesWhereStaged (pushedStaging d b') := by
  obtain ⟨hklen, hkovf, hkey⟩ := h
  by_cases hroom : b.klen.val < 256
  · have hroom' : b'.klen.val < 256 := hklen ▸ hroom
    obtain ⟨hl, ho, -⟩ := pushedStaging_of_room d hroom
    obtain ⟨hl', ho', -⟩ := pushedStaging_of_room d hroom'
    refine ⟨Fin.ext (by rw [hl', hl, hklen]), by rw [ho', ho, hkovf], fun k hk => ?_⟩
    rw [pushedStaging_read_of_room d hroom, pushedStaging_read_of_room d hroom', hklen]
    by_cases hend : k.toNat = b.klen.val
    · rw [if_pos hend, if_pos hend]
    · rw [if_neg hend, if_neg hend]
      exact hkey k (by omega)
  · rw [pushedStaging_of_full d (by omega), pushedStaging_of_full d (by omega)]
    exact ⟨hklen, rfl, hkey⟩

/-- R25: the Cipher State the KSA builds is the source's for the staged key, whatever was in `S`, `i` and `j`. -/
theorem Staging.AgreesWhereStaged.ksa_agrees (hpos : 0 < b.klen.val) (c d : CipherState) :
    (ksa b.K b.klen.val c).Agrees (ksa b'.K b'.klen.val d) := by
  have hkey : ∀ n < b.klen.val, stagedKey b' n = stagedKey b n := fun n hn =>
    congrArg BitVec.toNat (h.key (byteOfNat n) (by rwa [byteOfNat_toNat (by omega)]))
  have hsource : Reference.initial (stagedKey b') b'.klen.val = Reference.initial (stagedKey b) b.klen.val := by
    rw [h.klen, reference_initial_congr hpos hkey]
  exact (ksa_matches b c).agrees (hsource ▸ ksa_matches b' d)

end

/-! ### Cores that agree on everything written, under each update of the state -/

section
variable {s t : State} (h : s.AgreesWhereWritten t)
include h

theorem State.AgreesWhereWritten.staging : s.staging.AgreesWhereStaged t.staging := ⟨h.klen, h.kovf, h.key⟩

theorem State.AgreesWhereWritten.deliver (r : Word) : (s.deliver r).AgreesWhereWritten (t.deliver r) :=
  ⟨h.phase, h.klen, h.kovf, h.key, h.cipher, h.port, congrArg (· ++ [r]) h.responses⟩

theorem State.AgreesWhereWritten.setPort (es : List HostEvent) :
    (s.setPort es).AgreesWhereWritten (t.setPort es) :=
  ⟨h.phase, h.klen, h.kovf, h.key, h.cipher, rfl, h.responses⟩

theorem State.AgreesWhereWritten.setStaging {b b' : Staging} (hb : b.AgreesWhereStaged b') :
    (s.setStaging b).AgreesWhereWritten (t.setStaging b') :=
  ⟨h.phase, hb.klen, hb.kovf, hb.key, h.cipher, h.port, h.responses⟩

theorem State.AgreesWhereWritten.clearKey : (clearKey s).AgreesWhereWritten (clearKey t) :=
  h.setStaging (clearedStaging_agrees s.staging t.staging)

/-- In `UNINIT` no Cipher State has been written. -/
theorem State.AgreesWhereWritten.setUninit : (s.setPhase .uninit).AgreesWhereWritten (t.setPhase .uninit) :=
  ⟨rfl, h.klen, h.kovf, h.key, fun hp => absurd rfl hp, h.port, h.responses⟩

theorem State.AgreesWhereWritten.setCipher {c d : CipherState} (hc : c.Agrees d) (p : Phase) :
    ((s.setCipher c).setPhase p).AgreesWhereWritten ((t.setCipher d).setPhase p) :=
  ⟨rfl, h.klen, h.kovf, h.key, fun _ => hc, h.port, h.responses⟩

theorem resetEvent_agrees : (resetEvent s).AgreesWhereWritten (resetEvent t) :=
  ⟨rfl, rfl, rfl, fun _ _ => rfl, fun hp => absurd rfl hp, h.port, h.responses⟩

/-- R27, for a command: what it answers and writes comes from what has been written. -/
theorem exec_agrees (i : Instr) :
    ∃ s' t' : State, exec i s = .next s' ∧ exec i t = .next t' ∧ s'.AgreesWhereWritten t' := by
  cases i with
  | kclr => exact ⟨_, _, execKclr_eq s, execKclr_eq t, h.clearKey.deliver _⟩
  | kpush d => exact ⟨_, _, execKpush_eq d s, execKpush_eq d t, (h.setStaging (h.staging.pushed d)).deliver _⟩
  | init =>
    rcases execInit_same_response h.klen h.kovf with ⟨hs, ht⟩ | ⟨r, hs, ht⟩
    · have hpos : 0 < s.staging.klen.val := Nat.lt_of_lt_of_le (by decide) hs.2
      exact ⟨_, _, execInit_of_valid hs, execInit_of_valid ht,
        (h.setCipher (h.staging.ksa_agrees hpos s.cipher t.cipher) .scheduled).clearKey.deliver _⟩
    · exact ⟨_, _, hs, ht, h.setUninit.clearKey.deliver r⟩
  | xor d =>
    by_cases hp : s.phase = .uninit
    · exact ⟨_, _, execXor_of_uninit d hp, execXor_of_uninit d (h.phase.trans hp), h.deliver _⟩
    · have hp' : t.phase ≠ .uninit := h.phase ▸ hp
      have hc := h.cipher hp
      refine ⟨_, _, execXor_of_ready d hp, execXor_of_ready d hp', ?_⟩
      rw [hc.prga_byte_eq]
      exact (h.setCipher hc.prgaNext .running).deliver _
  | stat =>
    refine ⟨_, _, execStat_eq s, execStat_eq t, ?_⟩
    rw [statusView_congr h.phase h.klen h.kovf]
    exact h.deliver _

/-- The same for any word, legal or not. -/
theorem perform_agrees (w : Word) :
    ∃ s' t' : State, perform w s = .next s' ∧ perform w t = .next t' ∧ s'.AgreesWhereWritten t' := by
  cases hd : decode w with
  | ok i =>
    rw [perform_of_decode hd, perform_of_decode hd]
    exact exec_agrees h i
  | error e => exact ⟨_, _, perform_of_error hd s, perform_of_error hd t, h.deliver _⟩

end

/-- Settles O18: both cores wait, answer the same word, are reset, or are refused. -/
theorem nothingUnwrittenIsEverRead : Obligations.NothingUnwrittenIsEverRead := by
  intro s t h
  cases hport : s.port with
  | nil => exact .inl ⟨s, t, step_of_empty hport, step_of_empty (h.port.trans hport), h⟩
  | cons e rest =>
    have hrest := h.setPort rest
    rw [step_of_event hport, step_of_event (h.port.trans hport)]
    cases e with
    | command w => exact .inl (perform_agrees hrest w)
    | reset => exact .inl ⟨_, _, accept_reset _, accept_reset _, resetEvent_agrees hrest⟩
    | resetDuring w => exact .inl ⟨_, _, accept_resetDuring w _, accept_resetDuring w _, resetEvent_agrees hrest⟩
    | overlap a b => exact .inr ⟨_, accept_overlap a b _, accept_overlap a b _⟩

end Sys2Proof.Machine

/-! PROOFS. The keystream: the PRGA run on (spec/41_keystream_generator.md R61), `APPLY` on a Cipher State
(spec/42_keystream_applicator.md R64, R65): `applied` says what the buffer becomes, and `prgaSteps` where the Cipher
State stands then. -/

namespace Sys2Proof.Machine

/-! ### Many steps of the PRGA -/

theorem prgaSteps_zero (c : CipherState) : prgaSteps 0 c = c := rfl

theorem prgaSteps_succ (n : Nat) (c : CipherState) : prgaSteps (n + 1) c = prgaSteps n (prgaNext c) := rfl

/-- The last of `n + 1` steps, instead of the first. -/
theorem prgaSteps_succ_last (n : Nat) (c : CipherState) : prgaSteps (n + 1) c = prgaNext (prgaSteps n c) := by
  induction n generalizing c with
  | zero => rfl
  | succ n ih => rw [prgaSteps_succ, ih, ← prgaSteps_succ]

/-- What every step of the PRGA keeps, many steps keep. -/
theorem prgaSteps_keeps {P : CipherState → Prop} (keep : ∀ c, P c → P (prgaNext c)) (n : Nat) {c : CipherState}
    (h : P c) : P (prgaSteps n c) := by
  induction n generalizing c with
  | zero => exact h
  | succ n ih => exact ih (keep c h)

/-- R61: `i` moves on by one, modulo 256. -/
theorem prgaSteps_i_toNat (n : Nat) (c : CipherState) : (prgaSteps n c).i.toNat = (c.i.toNat + n) % 256 := by
  induction n with
  | zero => exact (Nat.mod_eq_of_lt c.i.isLt).symm
  | succ n ih =>
    rw [prgaSteps_succ_last]
    show (addByte (prgaSteps n c).i 0x01#8).toNat = _
    rw [addByte_toNat, ih, Nat.mod_add_mod]
    rfl

/-- The cursor `i` never stays, and so the Cipher State never does. -/
theorem prgaNext_ne (c : CipherState) : prgaNext c ≠ c := by
  intro heq
  have hi := prgaSteps_i_toNat 1 c
  rw [prgaSteps_succ, prgaSteps_zero, heq] at hi
  have := c.i.isLt
  omega

/-- Settles O29: each step moves `i` on and swaps two entries. -/
theorem prgaAlwaysAdvances : Obligations.PrgaAlwaysAdvances :=
  fun c n => ⟨prgaNext_ne c, prgaSteps_i_toNat n c,
    prgaSteps_keeps (P := fun c => c.S.isPermutation) (fun _ => prgaNext_isPermutation) n,
    prgaSteps_keeps (P := fun c => c.S.wf = true) (fun _ => prgaNext_wf) n⟩

theorem prgaSteps_matches {c : CipherState} {r : Reference.Cipher} (h : c.Matches r) (n : Nat) :
    (prgaSteps n c).Matches (Reference.after r n) := by
  induction n with
  | zero => exact h
  | succ n ih =>
    rw [prgaSteps_succ_last]
    exact prgaNext_matches ih

theorem CipherState.Agrees.prgaSteps {c d : CipherState} (h : c.Agrees d) (n : Nat) :
    (prgaSteps n c).Agrees (prgaSteps n d) := by
  induction n generalizing c d with
  | zero => exact h
  | succ n ih => exact ih h.prgaNext

/-! ### A buffer masked with the keystream -/

/-- The buffer `ds` masked byte by byte with the keystream that the Cipher State `c` puts out (R65). -/
def applied : List Byte → CipherState → List Byte
  | [], _ => []
  | d :: ds, c => xorByte d (prga c).1 :: applied ds (prgaNext c)

@[simp] theorem length_applied (ds : List Byte) (c : CipherState) : (applied ds c).length = ds.length := by
  induction ds generalizing c with
  | nil => rfl
  | cons d ds ih => exact congrArg (· + 1) (ih _)

/-- Byte `n` is masked with the keystream byte after `n` steps (R62). -/
theorem getD_applied {ds : List Byte} {n : Nat} (hn : n < ds.length) (c : CipherState) :
    (applied ds c).getD n 0x00#8 = xorByte (ds.getD n 0x00#8) (prga (prgaSteps n c)).1 := by
  induction ds generalizing n c with
  | nil => exact absurd hn (Nat.not_lt_zero n)
  | cons d ds ih =>
    cases n with
    | zero => rfl
    | succ n => exact ih (Nat.lt_of_succ_lt_succ hn) (prgaNext c)

theorem applied_congr (ds : List Byte) {c d : CipherState} (h : c.Agrees d) : applied ds c = applied ds d := by
  induction ds generalizing c d with
  | nil => rfl
  | cons b ds ih => rw [applied, applied, h.prga_byte_eq, ih h.prgaNext]

theorem xorByte_xorByte (d k : Byte) : xorByte (xorByte d k) k = d := by
  unfold xorByte
  rw [BitVec.xor_assoc, BitVec.xor_self, BitVec.xor_zero]

/-- Masking twice with the same keystream gives the buffer back (R68). -/
theorem applied_applied (ds : List Byte) (c : CipherState) : applied (applied ds c) c = ds := by
  induction ds generalizing c with
  | nil => rfl
  | cons d ds ih => rw [applied, applied, xorByte_xorByte, ih]

/-- The response words to an `APPLY ds` on `c`: `RC = OK` is 0, and the payload is the masked byte (R42, R63). -/
def appliedWords (ds : List Byte) (c : CipherState) : List Word := (applied ds c).map fun b => b.setWidth 16

@[simp] theorem length_appliedWords (ds : List Byte) (c : CipherState) : (appliedWords ds c).length = ds.length := by
  rw [appliedWords, List.length_map, length_applied]

theorem getD_appliedWords {ds : List Byte} {n : Nat} (hn : n < ds.length) (c : CipherState) :
    (appliedWords ds c).getD n 0x0000#16 =
      (xorByte (ds.getD n 0x00#8) (prga (prgaSteps n c)).1).setWidth 16 := by
  rw [← getD_applied hn]
  exact List.getD_map (applied ds c) 0x00#8 fun b => b.setWidth 16

/-! ### `APPLY` on a Cipher State -/

/-- The response to an accepted `XOR` is the masked byte (R42, R63). -/
theorem responseWord_ok_zext12 (b : Byte) : responseWord .ok (zext12 b) = b.setWidth 16 := by
  have := b.isLt
  apply BitVec.eq_of_toNat_eq
  rw [responseWord_ok_zext12_toNat, BitVec.toNat_setWidth, Nat.mod_eq_of_lt (by omega)]

/-- The core after an accepted `XOR d`: one step of the PRGA taken, and the masked byte delivered (R63). -/
def afterXor (d : Byte) (s : State) : State :=
  ((s.setCipher (prgaNext s.cipher)).setPhase .running).deliver ((xorByte d (prga s.cipher).1).setWidth 16)

@[simp] theorem afterXor_cipher (d : Byte) (s : State) : (afterXor d s).cipher = prgaNext s.cipher := rfl
@[simp] theorem afterXor_staging (d : Byte) (s : State) : (afterXor d s).staging = s.staging := rfl
@[simp] theorem afterXor_phase (d : Byte) (s : State) : (afterXor d s).phase = .running := rfl
@[simp] theorem afterXor_port (d : Byte) (s : State) : (afterXor d s).port = s.port := rfl
@[simp] theorem afterXor_responses (d : Byte) (s : State) :
    (afterXor d s).responses = s.responses ++ [(xorByte d (prga s.cipher).1).setWidth 16] := rfl

theorem exec_xor_of_ready (d : Byte) {s : State} (h : s.phase ≠ .uninit) : exec (.xor d) s = .next (afterXor d s) := by
  rw [afterXor, ← responseWord_ok_zext12]
  exact execXor_of_ready d h

theorem lastResponse_afterXor (d : Byte) (s : State) :
    lastResponse (afterXor d s) = (xorByte d (prga s.cipher).1).setWidth 16 :=
  List.getLastD_concat

theorem isOk_setWidth (b : Byte) : isOk (b.setWidth 16) = true := by
  have hcode : rcField (b.setWidth 16) = 0x0#4 := by
    apply BitVec.eq_of_toNat_eq
    have := b.isLt
    rw [rcField, BitVec.extractLsb'_toNat, BitVec.toNat_setWidth, Nat.shiftRight_eq_div_pow, BitVec.toNat_ofNat]
    omega
  rw [isOk, hcode]
  rfl

theorem resultByte_setWidth (b : Byte) : resultByte (b.setWidth 16) = b := by
  apply BitVec.eq_of_toNat_eq
  have := b.isLt
  rw [resultByte, BitVec.extractLsb'_toNat, BitVec.toNat_setWidth, Nat.shiftRight_zero]
  omega

/-- The core `t` after an `APPLY ds` on the core `s`, which has a Cipher State. -/
structure Applied (ds : List Byte) (s t : State) : Prop where
  performs : performAll (applyWords ds) s = .next t
  cipher : t.cipher = prgaSteps ds.length s.cipher
  staging : t.staging = s.staging
  port : t.port = s.port
  phase : t.phase = if ds = [] then s.phase else .running
  responses : t.responses = s.responses ++ appliedWords ds s.cipher

theorem Applied.ready {ds : List Byte} {s t : State} (h : Applied ds s t) (hs : s.phase ≠ .uninit) :
    t.phase ≠ .uninit := by
  rw [h.phase]
  split
  · exact hs
  · simp

/-- An accepted `XOR` before an `APPLY` is an `APPLY` of one byte more. -/
theorem Applied.cons {d : Byte} {ds : List Byte} {s t : State} (hs : s.phase ≠ .uninit)
    (h : Applied ds (afterXor d s) t) : Applied (d :: ds) s t := by
  obtain ⟨hperforms, hcipher, hstaging, hport, hphase, hresponses⟩ := h
  refine ⟨?_, hcipher, hstaging, hport, ?_, hresponses.trans (List.append_cons _ _ _).symm⟩
  · rw [applyWords, List.map_cons, performAll_cons, perform_encode, exec_xor_of_ready d hs]
    exact hperforms
  · rw [hphase, if_neg (List.cons_ne_nil d ds), afterXor_phase, ite_self]

/-- R65: `APPLY` on a Cipher State masks the whole buffer. -/
theorem applyBuffer_of_ready (ds : List Byte) {s : State} (h : s.phase ≠ .uninit) :
    ∃ t : State, applyBuffer ds s = .next (t, applied ds s.cipher) ∧ Applied ds s t := by
  induction ds generalizing s with
  | nil => exact ⟨s, rfl, rfl, rfl, rfl, rfl, rfl, (List.append_nil _).symm⟩
  | cons d ds ih =>
    obtain ⟨t, hbuffer, happlied⟩ := ih (s := afterXor d s) (by simp)
    refine ⟨t, ?_, happlied.cons h⟩
    simp [applyBuffer, issue, perform_encode, exec_xor_of_ready d h, hbuffer, lastResponse_afterXor, isOk_setWidth,
      resultByte_setWidth, applied]

/-! ### The obligations about `XOR` and `APPLY` -/

/-- Settles O31: `ks` is the byte of the one step that every `XOR d` takes from `s`. -/
theorem xorWithTheKeystreamByteCorners : Obligations.XorWithTheKeystreamByteCorners := by
  refine fun s hs => ⟨(prga s.cipher).1, fun d => ⟨_, exec_xor_of_ready d hs, prgaNext_ne _, rfl, ?_, ?_, ?_⟩⟩
  · rintro rfl
    rw [afterXor_responses, xorByte, BitVec.zero_xor]
  · intro hd
    rw [afterXor_responses, xorByte, hd, BitVec.xor_self]
    rfl
  · intro hks
    rw [afterXor_responses, hks, xorByte, BitVec.xor_zero]

/-- Settles O32: the description of `APPLY`, byte by byte. -/
theorem applyNeverFailsOnACipherState : Obligations.ApplyNeverFailsOnACipherState := by
  intro ds s hs
  obtain ⟨t, hbuffer, h⟩ := applyBuffer_of_ready ds hs
  exact ⟨t, applied ds s.cipher, hbuffer, h.performs, length_applied ds _, h.responses, h.cipher, h.staging, h.port,
    h.ready hs, fun n hn => getD_applied hn _⟩

/-- Two cores whose Cipher States agree answer an `APPLY` alike, and their Cipher States agree after it. -/
theorem performAll_applyWords_agrees (ds : List Byte) {s t : State} (hs : s.phase ≠ .uninit) (ht : t.phase ≠ .uninit)
    (h : s.cipher.Agrees t.cipher) :
    ∃ (s' t' : State) (rs : List Word), performAll (applyWords ds) s = .next s' ∧
      performAll (applyWords ds) t = .next t' ∧ s'.responses = s.responses ++ rs ∧ t'.responses = t.responses ++ rs ∧
      s'.cipher.Agrees t'.cipher := by
  obtain ⟨s', -, hs'⟩ := applyBuffer_of_ready ds hs
  obtain ⟨t', -, ht'⟩ := applyBuffer_of_ready ds ht
  refine ⟨s', t', appliedWords ds s.cipher, hs'.performs, ht'.performs, hs'.responses, ?_, ?_⟩
  · rw [ht'.responses, appliedWords, ← applied_congr ds h]
    rfl
  · rw [hs'.cipher, ht'.cipher]
    exact h.prgaSteps ds.length

/-- A valid `INIT` leaves the Cipher State of the KSA (R55). -/
theorem execInit_builds {s : State} (h : s.staging.valid) :
    ∃ t : State, execInit s = .next t ∧ t.phase ≠ .uninit ∧
      t.cipher = ksa s.staging.K s.staging.klen.val s.cipher :=
  ⟨_, execInit_of_valid h, by simp, rfl⟩

/-- Settles O25: the two KSAs build Cipher States that agree, and `APPLY` is a function of their entries. -/
theorem initDependsOnTheKeyAlone : Obligations.InitDependsOnTheKeyAlone := by
  intro s t ds hs ht hklen hkey
  obtain ⟨s₁, hs₁, hsp, hsc⟩ := execInit_builds hs
  obtain ⟨t₁, ht₁, htp, htc⟩ := execInit_builds ht
  have hstaged : s.staging.AgreesWhereStaged t.staging := ⟨hklen, ht.1.trans hs.1.symm, hkey⟩
  have hagree : s₁.cipher.Agrees t₁.cipher := by
    rw [hsc, htc]
    exact hstaged.ksa_agrees (Nat.lt_of_lt_of_le (by decide) hs.2) s.cipher t.cipher
  obtain ⟨s₂, t₂, rs, hs₂, ht₂, hsr, htr, hagree₂⟩ := performAll_applyWords_agrees ds hsp htp hagree
  refine ⟨s₁, t₁, s₂, t₂, rs, hs₁, ht₁, hagree, fun hsw htw => ?_, hs₂, ht₂, hsr, htr, hagree₂⟩
  exact (hagree.eq_of_wf (hsc ▸ ksa_wf _ _ hsw) (htc ▸ ksa_wf _ _ htw)).symm

end Sys2Proof.Machine

/-! PROOFS. A key (spec/40_key_scheduler.md R53, R56) and what is applied after it: the source's keystream and the round
trip (spec/42_keystream_applicator.md R68), and `KeyedState` (spec/70_reset_and_hazards.md R97). -/

namespace Sys2Proof.Machine

/-! ### `KEY` and `INITIALIZE` -/

/-- Settles O26: `KCLR` empties the buffer, and each `KPUSH` puts its byte after those that are there. -/
theorem keyBytesAreStagedInOrder : Obligations.KeyBytesAreStagedInOrder := by
  intro ks s
  obtain ⟨t, ht, staged⟩ := performAll_keyWords ks s
  exact ⟨t, ht, staged.staging.klen, staged.staging.kovf, staged.staging.key, staged.cipher, staged.phase, staged.port,
    staged.responses⟩

/-- Settles O27: one case per row of the key-length table; in each the premises of the other rows fail. -/
theorem initializeAnswersByKeyLength : Obligations.InitializeAnswersByKeyLength := by
  intro ks s
  rcases Nat.lt_or_ge ks.length 5 with hshort | hmin
  · obtain ⟨t, init, hphase, hcipher⟩ := initialises_of_short hshort s
    exact ⟨t, init.performs, init.klen, init.kovf, init.port, fun ⟨hmin, _⟩ => by omega,
      fun _ => ⟨hcipher, hphase, init.responses⟩, fun hlong => by omega⟩
  · rcases Nat.lt_or_ge 256 ks.length with hlong | hmax
    · obtain ⟨t, init, hphase, hcipher⟩ := initialises_of_long hlong s
      exact ⟨t, init.performs, init.klen, init.kovf, init.port, fun ⟨_, hmax⟩ => by omega, fun hshort => by omega,
        fun _ => ⟨hcipher, hphase, init.responses⟩⟩
    · obtain ⟨t, init, hphase, hmatches⟩ := initialises_of_validLength ⟨hmin, hmax⟩ s
      exact ⟨t, init.performs, init.klen, init.kovf, init.port, fun _ => ⟨hmatches, hphase, init.responses⟩,
        fun hshort => by omega, fun hlong => by omega⟩

/-! ### `APPLY` after `INITIALIZE` -/

/-- `APPLY` after `INITIALIZE` with a key of 5 to 256 bytes: `u` is the core in between. -/
theorem initialises_applied {ks : List Byte} (hlen : validLength ks.length) (ds : List Byte) (s : State) :
    ∃ u t : State, Initialises ks s u 0x0000#16 ∧ u.phase = .scheduled ∧
      u.cipher.Matches (Reference.initial (listedKey ks) ks.length) ∧
      applyBuffer ds u = .next (t, applied ds u.cipher) ∧ Applied ds u t := by
  obtain ⟨u, init, hphase, hmatches⟩ := initialises_of_validLength hlen s
  obtain ⟨t, hbuffer, h⟩ := applyBuffer_of_ready ds (s := u) (by simp [hphase])
  exact ⟨u, t, init, hphase, hmatches, hbuffer, h⟩

theorem Initialises.performs_applied {ks ds : List Byte} {s u t : State} {r : Word} (init : Initialises ks s u r)
    (h : Applied ds u t) : performAll (initKeyWords ks ++ applyWords ds) s = .next t := by
  rw [performAll_append, init.performs, andThen_next, h.performs]

/-- The keystream byte of call `n + 1` is the source's byte `n` (R62). -/
theorem prga_byte_toNat_of_matches {c : CipherState} {key : Nat → Nat} {length : Nat}
    (h : c.Matches (Reference.initial key length)) (n : Nat) :
    (prga (prgaSteps n c)).1.toNat = Reference.keystream key length n :=
  prgaOutput_toNat (prgaNext_matches (prgaSteps_matches h n))

/-- Response `n` to an `APPLY` on the source's Cipher State, as a number. -/
theorem getD_appliedWords_toNat {ds : List Byte} {n : Nat} (hn : n < ds.length) {c : CipherState}
    {key : Nat → Nat} {length : Nat} (h : c.Matches (Reference.initial key length)) :
    ((appliedWords ds c).getD n 0x0000#16).toNat =
      (ds.getD n 0x00#8).toNat ^^^ Reference.keystream key length n := by
  have := (xorByte (ds.getD n 0x00#8) (prga (prgaSteps n c)).1).isLt
  rw [getD_appliedWords hn, BitVec.toNat_setWidth, Nat.mod_eq_of_lt (by omega), xorByte, BitVec.toNat_xor,
    prga_byte_toNat_of_matches h]

/-- Settles O33: after `INITIALIZE` the Cipher State is the source's, and it goes on with the source call by call. -/
theorem xorResponsesAreTheSourceKeystream : Obligations.XorResponsesAreTheSourceKeystream := by
  intro ks ds s hlen
  obtain ⟨u, t, init, hphase, hmatches, -, h⟩ := initialises_applied hlen ds s
  refine ⟨t, appliedWords ds u.cipher, init.performs_applied h, ?_, length_appliedWords ds _,
    fun n hn => getD_appliedWords_toNat hn hmatches, ?_, ?_, ?_, ?_⟩
  · rw [h.responses, init.responses, List.append_assoc s.responses, ← List.replicate_succ']
  · rw [h.cipher]
    exact prgaSteps_matches hmatches ds.length
  · rw [h.phase, hphase]
  · rw [h.staging, init.klen]
  · rw [h.staging, init.kovf]

/-- `KS` is `XOR` of a zero byte, and so `KeyedState` is `INITIALIZE` and then `APPLY` of zeros (R48, R97). -/
theorem keyedState_eq (ks : List Byte) (n : Nat) (s : State) :
    keyedState ks n s = performAll (initKeyWords ks ++ applyWords (List.replicate n 0x00#8)) s := by
  rw [keyedState, applyWords, List.map_replicate]

/-- Settles O34: `n` zeros applied after `INITIALIZE`. -/
theorem keyedStateIsDeterminedByKeyAndCount : Obligations.KeyedStateIsDeterminedByKeyAndCount := by
  intro ks n s hlen
  obtain ⟨u, t, init, hphase, hmatches, -, h⟩ := initialises_applied hlen (List.replicate n 0x00#8) s
  refine ⟨t, (keyedState_eq ks n s).trans (init.performs_applied h), ?_, ?_, ?_, ?_⟩
  · rw [h.cipher, List.length_replicate]
    exact prgaSteps_matches hmatches n
  · rw [h.phase, hphase]
    simp only [List.replicate_eq_nil_iff]
  · rw [h.staging, init.klen]
  · rw [h.staging, init.kovf]

/-- Settles O35: both runs mask with the keystream of the same key, and masking twice gives the buffer back. -/
theorem applyStaticTwiceIsTheIdentity : Obligations.ApplyStaticTwiceIsTheIdentity := by
  intro ks ds s t hlen
  obtain ⟨u, s', initS, -, hu, hbufferS, -⟩ := initialises_applied hlen ds s
  obtain ⟨v, t', initT, -, hv, hbufferT, -⟩ := initialises_applied hlen (applied ds u.cipher) t
  have hback : applied (applied ds u.cipher) v.cipher = ds := by
    rw [← applied_congr _ (hu.agrees hv), applied_applied]
  rw [hback] at hbufferT
  exact ⟨s', t', _, initS.applyStatic_of_ok rfl hbufferS, initT.applyStatic_of_ok rfl hbufferT⟩

end Sys2Proof.Machine

/-! PROOFS. Sequences of words that leave the Cipher State: between two chunks of a buffer
(spec/42_keystream_applicator.md R68), and in `UNINIT` until an `INIT` (spec/70_reset_and_hazards.md R92, R95). -/

namespace Sys2Proof.Machine

/-- A sequence of words keeps what each of its words keeps, and each has one response, in the order of the words. -/
theorem performAll_keeps {P : State → Prop} {R : Word → Word → Prop} {ws : List Word}
    (keep : ∀ w ∈ ws, ∀ s t : State, P s → perform w s = .next t →
      P t ∧ ∀ r : Word, t.responses = s.responses ++ [r] → R w r) {s : State} (h : P s) :
    ∃ (t : State) (rs : List Word), performAll ws s = .next t ∧ P t ∧ t.responses = s.responses ++ rs ∧
      List.Forall₂ R ws rs := by
  induction ws generalizing s with
  | nil => exact ⟨s, [], rfl, h, (List.append_nil _).symm, .nil⟩
  | cons w ws ih =>
    obtain ⟨u, rc, p, hu, -, hresponse, -⟩ := perform_answers w s
    obtain ⟨hPu, hR⟩ := keep w List.mem_cons_self s u h hu
    obtain ⟨t, rs, ht, hPt, hresponses, hrs⟩ := ih (fun v hv => keep v (List.mem_cons_of_mem w hv)) hPu
    refine ⟨t, _ :: rs, ?_, hPt, ?_, .cons (hR _ hresponse) hrs⟩
    · rw [performAll_cons, hu, andThen_next, ht]
    · rw [hresponses, hresponse, ← List.append_cons]

/-- Words that are no `INIT` and no `XOR` leave `PHASE`, `S`, `i` and `j`, with one response each. -/
theorem performAll_other_words {mid : List Word} (hmid : ∀ w ∈ mid, ¬isInitWord w ∧ ¬isXorWord w) (s : State) :
    ∃ (t : State) (rs : List Word), performAll mid s = .next t ∧ t.phase = s.phase ∧ t.cipher = s.cipher ∧
      t.responses = s.responses ++ rs ∧ rs.length = mid.length := by
  obtain ⟨t, rs, ht, ⟨hphase, hcipher⟩, hresponses, hrs⟩ :=
    performAll_keeps (P := fun t => t.phase = s.phase ∧ t.cipher = s.cipher) (R := fun _ _ => True) (ws := mid)
      (fun w hw u v hu hv => by
        obtain ⟨hphase, hcipher⟩ := phase_cipher_of_other_word hv (hmid w hw).1 (hmid w hw).2
        exact ⟨⟨hphase.trans hu.1, hcipher.trans hu.2⟩, fun _ _ => trivial⟩) ⟨rfl, rfl⟩
  exact ⟨t, rs, ht, hphase, hcipher, hresponses, hrs.length_eq.symm⟩

/-- Settles O36: the second chunk starts from the same Cipher State with the words between as without them. -/
theorem chunkingDoesNotChangeTheStream : Obligations.ChunkingDoesNotChangeTheStream := by
  intro a b mid s hs hmid
  obtain ⟨u, -, ha⟩ := applyBuffer_of_ready a hs
  obtain ⟨t, -, hb⟩ := applyBuffer_of_ready b (ha.ready hs)
  obtain ⟨v, rm, hv, hphase, hcipher, hresponses, hrm⟩ := performAll_other_words hmid u
  obtain ⟨t', -, hb'⟩ := applyBuffer_of_ready b (s := v) (hphase ▸ ha.ready hs)
  refine ⟨t, t', appliedWords a s.cipher, rm, appliedWords b u.cipher, ?_, ?_, ?_, length_appliedWords a _, hrm,
    length_appliedWords b _, ?_, ?_⟩
  · rw [applyWords, List.map_append, performAll_append]
    exact (congrArg (andThen · _) ha.performs).trans hb.performs
  · rw [performAll_append, performAll_append, ha.performs, andThen_next, hv, andThen_next, hb'.performs]
  · rw [hb'.cipher, hb.cipher, hcipher]
  · rw [hb.responses, ha.responses]
  · rw [hb'.responses, hcipher, hresponses, ha.responses]

/-- In `UNINIT` a word that is no `INIT` leaves `UNINIT` and the Cipher State, and an `XOR` answers `NOT_READY`. -/
theorem perform_uninit {w : Word} {s t : State} (hw : ¬isInitWord w) (hs : s.phase = .uninit)
    (h : perform w s = .next t) :
    (t.phase = .uninit ∧ t.cipher = s.cipher) ∧
      ∀ r : Word, t.responses = s.responses ++ [r] → isXorWord w → r = 0x3000#16 := by
  by_cases hx : isXorWord w
  · refine ⟨phase_cipher_of_rejected_xor h hx hs, fun r hr _ => ?_⟩
    obtain ⟨d, hd⟩ := perform_of_isXorWord hx s
    cases (hd.trans (execXor_of_uninit d hs)).symm.trans h
    simpa using hr.symm
  · obtain ⟨hphase, hcipher⟩ := phase_cipher_of_other_word h hw hx
    exact ⟨⟨hphase.trans hs, hcipher⟩, fun _ _ hx' => absurd hx' hx⟩

/-- Settles O39: word by word the core stays in `UNINIT` with its Cipher State. -/
theorem noKeystreamWithoutInit : Obligations.NoKeystreamWithoutInit := by
  intro ws s hs hws
  obtain ⟨t, rs, ht, ⟨hphase, hcipher⟩, hresponses, hrs⟩ :=
    performAll_keeps (P := fun t => t.phase = .uninit ∧ t.cipher = s.cipher)
      (R := fun w r => isXorWord w → r = 0x3000#16) (ws := ws)
      (fun w hw u v hu hv => by
        obtain ⟨⟨hphase, hcipher⟩, hr⟩ := perform_uninit (hws w hw) hu.1 hv
        exact ⟨⟨hphase, hcipher.trans hu.2⟩, hr⟩) ⟨hs, rfl⟩
  refine ⟨t, rs, ht, hphase, hcipher, hresponses, hrs.length_eq.symm, fun n hn => ?_⟩
  have hn' : n < rs.length := hrs.length_eq ▸ hn
  rw [List.getD_eq_getElem _ _ hn, List.getD_eq_getElem _ _ hn']
  exact hrs.get hn hn'

end Sys2Proof.Machine

/-! PROOFS. Each command repeated (spec/20_memory.md R35), and several cores that share nothing
(spec/60_exceptions.md R88). -/

namespace Sys2Proof.Machine

/-! ### Repetition -/

/-- R50: clearing a cleared buffer writes 0 over 0, which in canonical form is the same data (log 6). -/
theorem clearedStaging_clearedStaging {b : Staging} (h : b.K.wf = true) :
    clearedStaging (clearedStaging b) = clearedStaging b := by
  have hK : (clearedStaging (clearedStaging b)).K = (clearedStaging b).K :=
    Memory.eq_of_read (clearedStaging_wf (clearedStaging_wf h)) (clearedStaging_wf h) fun k => by
      rw [clearedStaging_read, clearedStaging_read]
  calc clearedStaging (clearedStaging b)
      = { kovf := false, K := (clearedStaging (clearedStaging b)).K, klen := 0 } := rfl
    _ = { kovf := false, K := (clearedStaging b).K, klen := 0 } := by rw [hK]
    _ = clearedStaging b := rfl

/-- R35, R55: the key that an `INIT` leaves is empty, and so too short for the next. -/
theorem execInit_after_execInit {s t : State} (h : execInit s = .next t) :
    execInit t = .next ((clearKey (t.setPhase .uninit)).deliver 0x1005#16) := by
  obtain ⟨hstaging, -⟩ := execInit_clears_key h
  exact execInit_of_short (by rw [hstaging, clearedStaging_kovf]) (by rw [hstaging, clearedStaging_klen]; decide)

/-- R52: a byte more, or the overflow. -/
theorem pushedStaging_grows_or_overflows (d : Byte) (b : Staging) :
    (pushedStaging d b).klen.val = b.klen.val + 1 ∨ (pushedStaging d b).kovf = true := by
  by_cases hroom : b.klen.val < 256
  · exact .inl (pushedStaging_of_room d hroom).1
  · rw [pushedStaging_of_full d (by omega)]
    exact .inr rfl

/-- Settles O42: command by command. -/
theorem repetitionOfCommands : Obligations.RepetitionOfCommands := by
  intro s
  obtain ⟨t, ht⟩ := execInit_next s
  exact ⟨⟨_, _, statusWord s, execStat_eq s, execStat_eq _, List.append_assoc _ _ _⟩,
    fun hwf => ⟨_, _, execKclr_eq s, execKclr_eq _, rfl, clearedStaging_clearedStaging hwf, rfl⟩,
    ⟨t, _, ht, execInit_after_execInit ht, rfl, rfl, rfl⟩,
    fun d hs => ⟨_, exec_xor_of_ready d hs, prgaNext_ne _⟩,
    fun d => ⟨_, execKpush_eq d s, pushedStaging_grows_or_overflows d s.staging⟩⟩

/-! ### Several cores -/

/-- A core that steps takes its own place in the platform, and no other. -/
theorem platformStep_of_step {k : Nat} {p : Platform} {s t : State} (hs : p[k]? = some s) (ht : step s = .next t) :
    platformStep k p = .next (p.set k t) := by
  simp only [platformStep, hs, ht]

/-- All that a move can do. -/
theorem platformStep_cases {k : Nat} {p q : Platform} (h : platformStep k p = .next q) :
    (p[k]? = none ∧ q = p) ∨ ∃ s t : State, p[k]? = some s ∧ step s = .next t ∧ q = p.set k t := by
  cases hs : p[k]? with
  | none =>
    simp only [platformStep, hs] at h
    cases h
    exact .inl ⟨rfl, rfl⟩
  | some s =>
    cases ht : step s with
    | next t =>
      cases (platformStep_of_step hs ht).symm.trans h
      exact .inr ⟨s, t, rfl, ht, rfl⟩
    | fault r => cases r
    | refused r => simp [platformStep, hs, ht] at h

/-- The core that has stepped stands in its place. -/
theorem getElem?_set_stepped {k : Nat} {p : Platform} {s : State} (hs : p[k]? = some s) (t : State) :
    (p.set k t)[k]? = some t := by
  obtain ⟨hk, -⟩ := List.getElem?_eq_some_iff.mp hs
  exact List.getElem?_set_self hk

/-- R88: a move leaves every other core, and is its own core's step. -/
theorem platformStep_frame {k : Nat} {p q : Platform} (h : platformStep k p = .next q) :
    q.length = p.length ∧ (∀ n : Nat, n ≠ k → q[n]? = p[n]?) ∧
      ∀ s : State, p[k]? = some s → ∃ t : State, step s = .next t ∧ q[k]? = some t := by
  rcases platformStep_cases h with ⟨hnone, rfl⟩ | ⟨s, t, hs, ht, rfl⟩
  · exact ⟨rfl, fun _ _ => rfl, fun s hs => by simp [hnone] at hs⟩
  · refine ⟨List.length_set, fun n hn => List.getElem?_set_ne hn.symm, fun s' hs' => ?_⟩
    cases hs.symm.trans hs'
    exact ⟨t, ht, getElem?_set_stepped hs t⟩

/-- Two moves of different cores, one after the other: the second core has not noticed the first. -/
theorem platformRun_pair {k l : Nat} {p : Platform} {s t s' t' : State} (hne : k ≠ l) (hs : p[k]? = some s)
    (ht : p[l]? = some t) (hs' : step s = .next s') (ht' : step t = .next t') :
    platformRun [k, l] p = .next ((p.set k s').set l t') := by
  have hsecond : (p.set k s')[l]? = some t := (List.getElem?_set_ne hne).trans ht
  simp only [platformRun, platformStep_of_step hs hs', platformStep_of_step hsecond ht']

/-- Settles O43: the frame of a move, and two updates of different places in either order. -/
theorem coresShareNoState : Obligations.CoresShareNoState := by
  refine ⟨fun k p q h => platformStep_frame h, fun k l p s t s' t' hne hs ht hs' ht' =>
    ⟨_, platformRun_pair hne hs ht hs' ht', ?_, ?_, ?_⟩⟩
  · rw [platformRun_pair hne.symm ht hs ht' hs', List.set_comm _ _ hne]
  · rw [List.getElem?_set_ne hne.symm]
    exact getElem?_set_stepped hs s'
  · exact getElem?_set_stepped ((List.getElem?_set_ne hne).trans ht) t'

end Sys2Proof.Machine
